-- ==== Sys2Proof/Word.lean ====
section
/-! DEFINITION. The word types of the block: bytes and 16-bit values (00_scope.md R5, R6). -/

namespace Sys2Proof

/-- A byte: 8 bits, bit 7 most significant (R6). -/
abbrev Byte := BitVec 8

/-- A 16-bit value: the accumulator's width, and a device register's (R5). -/
abbrev Half := BitVec 16

end Sys2Proof
end

