-- ==== Sys2Proof/Syntax.lean ====
section
/-! DEFINITION. What the host can present to the block: the eleven commands, the port they are presented on, and the host
actions (30_encoding.md R80 to R88, 20_memory.md R66). -/

namespace Sys2Proof

/-- The closed set of eight ordering conventions, in the order of R81. The name is a label, not a definition (00_scope.md R9). -/
inductive Convention where
  | abcd | cdab | badc | dcba
  | abcdefgh | ghefcdab | badcfehg | hgfedcba
  deriving DecidableEq, Repr

/-- The eleven commands of R84, one constructor per row of the opcode table. START and LEN are natural numbers (R83). -/
inductive Instr where
  | reorderAbcd
  | reorderCdab
  | reorderBadc
  | reorderDcba
  | reorderAbcdefgh
  | reorderGhefcdab
  | reorderBadcfehg
  | reorderHgfedcba
  | crc16R (start len : Nat)
  | crc16P (len : Nat)
  | crc16F
  deriving DecidableEq, Repr

/-- The convention a command names, for the eight REORDER commands (format P, R80). -/
def Instr.convention? : Instr → Option Convention
  | .reorderAbcd => some .abcd
  | .reorderCdab => some .cdab
  | .reorderBadc => some .badc
  | .reorderDcba => some .dcba
  | .reorderAbcdefgh => some .abcdefgh
  | .reorderGhefcdab => some .ghefcdab
  | .reorderBadcfehg => some .badcfehg
  | .reorderHgfedcba => some .hgfedcba
  | .crc16R _ _ => none
  | .crc16P _ => none
  | .crc16F => none

/-- What the host presents to issue a command: the 4-bit command word and, beside it, the two operands (R80, R83).
DESIGN CHOICE (log entry 10, safe): the record always holds two naturals, and decoding ignores an operand the form does not take. -/
structure Request where
  word  : BitVec 4
  start : Nat := 0
  len   : Nat := 0
  deriving DecidableEq, Repr

/-- One element of a run (70_reset_and_hazards.md R207): a host action of 20_memory.md R66, a command presented, or the block's
one reset event (R200; log entry 13). -/
inductive HostEvent where
  /-- LOAD(bytes). -/
  | load (bytes : List Byte)
  /-- READ. -/
  | read
  /-- A command word with its operands. -/
  | command (r : Request)
  /-- The reset event. -/
  | reset
  deriving DecidableEq, Repr

/-- One line of a program in the assembler's notation (30_encoding.md R87, R88), less the directive `.hostle`, which states
the parameter HOST_LE and is no action at run time. -/
inductive AsmLine where
  /-- A command with its operands. -/
  | command (i : Instr)
  /-- The pseudo-instruction CRC16.T START. -/
  | tail (start : Nat)
  /-- The directive `.load b0 b1 ...`. -/
  | load (bytes : List Byte)
  /-- The directive `.read`. -/
  | read
  deriving DecidableEq, Repr

end Sys2Proof
end

