-- ==== Sys2Proof/Decode.lean ====
section
/-! DEFINITION. Decoding a presented command, total, rejecting by name; the encoder; the pseudo-instruction
(30_encoding.md R80 to R90). -/

namespace Sys2Proof

/-- Why a presented command is no command of the block. -/
inductive DecodeError where
  /-- Command words 0xB to 0xF (R85). -/
  | reservedWord (word : BitVec 4)
  deriving DecidableEq, Repr

/-- The field CONV[2:0] of format P (R81): all eight values are assigned. -/
def conventionOfField (conv : BitVec 3) : Convention :=
  match conv.toNat with
  | 0 => .abcd
  | 1 => .cdab
  | 2 => .badc
  | 3 => .dcba
  | 4 => .abcdefgh
  | 5 => .ghefcdab
  | 6 => .badcfehg
  | _ => .hgfedcba

/-- The field value of a convention (R81). -/
def fieldOfConvention : Convention → BitVec 3
  | .abcd => 0b000#3
  | .cdab => 0b001#3
  | .badc => 0b010#3
  | .dcba => 0b011#3
  | .abcdefgh => 0b100#3
  | .ghefcdab => 0b101#3
  | .badcfehg => 0b110#3
  | .hgfedcba => 0b111#3

/-- The REORDER command that names a convention (R84, words 0x0 to 0x7). -/
def reorderInstr : Convention → Instr
  | .abcd => .reorderAbcd
  | .cdab => .reorderCdab
  | .badc => .reorderBadc
  | .dcba => .reorderDcba
  | .abcdefgh => .reorderAbcdefgh
  | .ghefcdab => .reorderGhefcdab
  | .badcfehg => .reorderBadcfehg
  | .hgfedcba => .reorderHgfedcba

/-- The field FORM[2:0] of format C with the operands its form takes (R82, R83); 3 to 7 are reserved. -/
def checksumOfField (form : BitVec 3) (start len : Nat) : Option Instr :=
  match form.toNat with
  | 0 => some (.crc16R start len)
  | 1 => some (.crc16P len)
  | 2 => some .crc16F
  | _ => none

/-- The command a request presents. CMD[3] tells the format, CMD[2:0] is CONV or FORM (R80). -/
def decode : Request → Except DecodeError Instr
  | { word, start, len } =>
    if word.getLsbD 3 then
      match checksumOfField (word.extractLsb' 0 3) start len with
      | some i => .ok i
      | none => .error (.reservedWord word)
    else
      .ok (reorderInstr (conventionOfField (word.extractLsb' 0 3)))

/-- Format P: CMD[3] = 0 over CONV (R80). -/
def formatP (conv : Convention) : Request := { word := 0#1 ++ fieldOfConvention conv }

/-- Format C: CMD[3] = 1 over FORM, with the operands beside the word (R80, R83). -/
def formatC (form : BitVec 3) (start len : Nat) : Request := { word := 1#1 ++ form, start := start, len := len }

/-- What the host presents to issue a command; an operand the form does not take is left 0 (R80 to R84). -/
def encode : Instr → Request
  | .reorderAbcd => formatP .abcd
  | .reorderCdab => formatP .cdab
  | .reorderBadc => formatP .badc
  | .reorderDcba => formatP .dcba
  | .reorderAbcdefgh => formatP .abcdefgh
  | .reorderGhefcdab => formatP .ghefcdab
  | .reorderBadcfehg => formatP .badcfehg
  | .reorderHgfedcba => formatP .hgfedcba
  | .crc16R start len => formatC 0b000#3 start len
  | .crc16P len => formatC 0b001#3 0 len
  | .crc16F => formatC 0b010#3 0 0

/-- CRC16.T START, the assembler's one pseudo-instruction (R88): legal only where START is at most the known ILEN. -/
def assembleTail (ilen start : Nat) : Option Instr :=
  if start ≤ ilen then some (.crc16R start (ilen - start)) else none

/-- The event a line of a program stands for, where the buffer loaded so far has length `ilen` (R87, R88). -/
def assembleLine (ilen : Nat) : AsmLine → Option HostEvent
  | .command i => some (.command (encode i))
  | .tail start => (assembleTail ilen start).map fun i => .command (encode i)
  | .load bytes => some (.load bytes)
  | .read => some .read

/-- The length of the buffer after a line (R87: `.load` sets it). -/
def lengthAfter (ilen : Nat) : AsmLine → Nat
  | .command _ => ilen
  | .tail _ => ilen
  | .load bytes => bytes.length
  | .read => ilen

/-- The events a program stands for, line by line; the assembler knows ILEN from the last `.load` (R88). -/
def assemble : Nat → List AsmLine → Option (List HostEvent)
  | _, [] => some []
  | ilen, line :: rest =>
    match assembleLine ilen line, assemble (lengthAfter ilen line) rest with
    | some e, some es => some (e :: es)
    | _, _ => none

/-- The request that a word of the opcode table stands for: the command word is its low four bits, and the operands, which the
table gives no bits, are 0 (R80, R83). DESIGN CHOICE (log entry 11, safe): bits above bit 3 belong to no command word. -/
def requestOfTableWord (nbits w : Nat) : Request := { word := BitVec.ofNat 4 (w % 2 ^ nbits) }

/-- The command the decoder reads from a word of the opcode table. -/
def decodeTableWord (nbits w : Nat) : Option Instr :=
  match decode (requestOfTableWord nbits w) with
  | .ok i => some i
  | .error _ => none

end Sys2Proof
end

