-- ==== Sys2Proof/Config.lean ====
section
/-! DEFINITION. What an implementation or its environment fixes and the spec leaves open (00_scope.md R5,
10_state.md R31). The constants below without a body are free: nothing can be proved of their values. -/

namespace Sys2Proof

/-- HOST_LE, the byte order of the platform, latched in CFG.HLE at reset (R5, R21). DESIGN CHOICE (log entry 2, safe): free. -/
opaque Config.hostLE : Bool

/-- MAXLEN, the largest buffer a host may load; `none` is unbounded, the default R5 states. DESIGN CHOICE (log entry 3, unsafe
for a run from reset on an implementation with a bound). -/
def Config.maxLen : Option Nat := none

/-- ACC after the n-th reset: unspecified (R31). DESIGN CHOICE (log entry 4, unsafe as every reset value is): free. -/
opaque Config.resetAcc : Nat → Half

/-- CRCLO after the n-th reset: unspecified (R31). DESIGN CHOICE (log entry 4, unsafe as every reset value is): free. -/
opaque Config.resetCrcLo : Nat → Byte

/-- CRCHI after the n-th reset: unspecified (R31). DESIGN CHOICE (log entry 4, unsafe as every reset value is): free. -/
opaque Config.resetCrcHi : Nat → Byte

end Sys2Proof
end

