-- ==== Sys2Proof/Machine/State.lean ====
section
/-! DEFINITION. The state of the block (10_state.md R20 to R32), the reasons a step can stop, and the state after reset. -/

namespace Sys2Proof.Machine

/-- The bytes of one buffer by position, in one canonical form (addresses strictly rising, no entry equal to what an unlisted
position reads as). The buffer's length is a state element of its own (R22, R23). DESIGN CHOICE (log entry 7). -/
abbrev Memory := List Host.Cell

/-- What a READ observed (20_memory.md R66). It has no CFG.HLE: 10_state.md R32 leaves open whether the host can read that
back, and here it cannot. DESIGN CHOICE (log entry 14). -/
structure HostView where
  /-- OBUF[0 .. OLEN-1], position 0 first. -/
  obuf  : List Byte
  olen  : Nat
  crcLo : Byte
  crcHi : Byte
  stat  : BitVec 1
  deriving DecidableEq, Repr

/-- The nine elements of R20, then the model's own four fields. -/
structure State where
  /-- CFG.HLE: true where the platform is little-endian (R21). -/
  hle     : Bool
  /-- IBUF (R22). -/
  ibuf    : Memory
  /-- ILEN (R22). -/
  ilen    : Nat
  /-- OBUF (R23). -/
  obuf    : Memory
  /-- OLEN (R23). -/
  olen    : Nat
  /-- ACC (R24). -/
  acc     : Half
  /-- CRCLO (R25). -/
  crcLo   : Byte
  /-- CRCHI (R25). -/
  crcHi   : Byte
  /-- STAT: 0 is OK, 1 is InvalidArgument (R26). -/
  stat    : BitVec 1
  /-- The model's own: the parameter MAXLEN, constant through a run (00_scope.md R5, log entry 3). -/
  maxLen  : Option Nat
  /-- The model's own: what the host does next, in issue order (70_reset_and_hazards.md R207, log entry 1). -/
  pending : List HostEvent
  /-- The model's own: what the host's last READ observed (20_memory.md R66, log entry 6). -/
  view    : Option HostView
  /-- The model's own: how many resets there have been, so that each leaves fresh unspecified values (log entry 4). -/
  resets  : Nat
  deriving DecidableEq, Repr

/-- The model's one fault. The spec's only error, InvalidArgument, is no fault: the command completes (60_exceptions.md R184). -/
inductive Fault where
  /-- Raised by `bufRead` at a position outside IBUF, which 20_memory.md R51 leaves without meaning. Safe: no command reaches
  it from any state. -/
  | readOutsideInput (position : Nat)
  deriving DecidableEq, Repr

/-- Why a step gives no next state without a fault. -/
inductive Refusal where
  /-- Raised by an arm of `exec` for an instruction without a meaning; none is left. Safe. -/
  | notModelled (mnemonic : String)
  /-- Raised by `issue` for command words 0xB to 0xF (60_exceptions.md R188 (a)). Safe: the spec asks for it. -/
  | reservedCommandWord (word : BitVec 4)
  /-- Raised by CRC16.R and CRC16.P for a range not inside IBUF (60_exceptions.md R188 (b)). Safe: the spec asks for it. -/
  | rangeOutsideBuffer (start len : Nat)
  /-- Raised by `execLoad` for a buffer longer than MAXLEN, which cannot exist (20_memory.md R51). Safe. -/
  | loadTooLong (len : Nat)
  deriving DecidableEq, Repr

/-- The state after a reset with the two open parameters given, after `n` earlier resets (70_reset_and_hazards.md R200,
10_state.md R31). -/
def State.afterReset (hostLE : Bool) (maxLen : Option Nat) (n : Nat) : State where
  hle := hostLE
  ibuf := []
  ilen := 0
  obuf := []
  olen := 0
  acc := Config.resetAcc n
  crcLo := Config.resetCrcLo n
  crcHi := Config.resetCrcHi n
  stat := 0#1
  maxLen := maxLen
  pending := []
  view := none
  resets := n + 1

/-- The machine right after reset (R200): HOST_LE free, MAXLEN at its default, nothing loaded, nothing pending. -/
def State.reset : State := State.afterReset Config.hostLE Config.maxLen 0

end Sys2Proof.Machine
end

