-- ==== Sys2Proof/Machine/Ops.lean ====
section
/-! DEFINITION. The named operations over the buffers and the registers, and taking the block's one exception
(20_memory.md R50 to R66, 10_state.md R21 to R26, 60_exceptions.md R184). -/

namespace Sys2Proof.Machine

/-- What the instruction definitions answer. -/
abbrev Result := Host.Outcome State Fault Refusal

/-- What a position that a buffer does not list reads as: 00. DESIGN CHOICE (log entry 7, marked unsafe): a way to write a
sequence down; every position below the length has been written, so no byte of the spec is left open by it. -/
def Memory.unlisted : Byte := 0#8

/-- The byte at a position. -/
def Memory.read : Memory → Nat → Byte
  | [], _ => Memory.unlisted
  | (c, v) :: rest, a => if a = c then v else Memory.read rest a

/-- Put one cell in front, unless it holds what an unlisted position reads as. -/
def Memory.cons (a : Nat) (b : Byte) (rest : Memory) : Memory :=
  if b = Memory.unlisted then rest else (a, b) :: rest

/-- Store one byte, keeping the canonical form. -/
def Memory.write : Memory → Nat → Byte → Memory
  | [], a, b => Memory.cons a b []
  | (c, v) :: rest, a, b =>
    if a < c then Memory.cons a b ((c, v) :: rest)
    else if a = c then Memory.cons a b rest
    else (c, v) :: Memory.write rest a b

/-- The buffer that holds a byte sequence from position `a` on. -/
def Memory.ofBytesAt : Nat → List Byte → Memory
  | _, [] => []
  | a, b :: bs => Memory.cons a b (Memory.ofBytesAt (a + 1) bs)

/-- The buffer that holds a byte sequence, position 0 first (20_memory.md R52). -/
def Memory.ofBytes (bytes : List Byte) : Memory := Memory.ofBytesAt 0 bytes

/-- The `n` bytes from position `start` on, lowest position first. -/
def Memory.bytes (m : Memory) (start n : Nat) : List Byte := (List.range' start n).map (Memory.read m)

/-- Every cell lies at or above `a`, in strictly rising order, and none holds what an unlisted position reads as. -/
def Memory.wfFrom : Nat → Memory → Bool
  | _, [] => true
  | a, (c, v) :: rest => decide (a ≤ c) && decide (v ≠ Memory.unlisted) && Memory.wfFrom (c + 1) rest

/-- The canonical form. -/
def Memory.wf (m : Memory) : Bool := Memory.wfFrom 0 m

/-- Every cell lies below a length: the positions of a buffer are 0 to length-1 and nothing else (20_memory.md R58). -/
def Memory.below (m : Memory) (len : Nat) : Bool := m.all fun cell => decide (cell.1 < len)

/-- IBUF[i], BufRead(i): defined for i below ILEN only, without side effect (20_memory.md R51). -/
def bufRead (s : State) (i : Nat) : Except Fault Byte :=
  if i < s.ilen then .ok (s.ibuf.read i) else .error (.readOutsideInput i)

/-- OBUF[i] <- b, OBufWrite(i, b), on the output buffer a REORDER command is building (20_memory.md R51). -/
def obufWrite (out : Memory) (i : Nat) (b : Byte) : Memory := out.write i b

/-- The low byte v[7:0] (00_scope.md R6). -/
def lowByte (v : Half) : Byte := v.extractLsb' 0 8

/-- The high byte v[15:8] (00_scope.md R6). -/
def highByte (v : Half) : Byte := v.extractLsb' 8 8

/-- zext_16 (00_scope.md R7). -/
def zext16 (b : Byte) : Half := b.setWidth 16

/-- IBUF and ILEN together, which only LOAD writes (20_memory.md R66). -/
def State.setInput (s : State) (bytes : List Byte) : State :=
  { s with ibuf := Memory.ofBytes bytes, ilen := bytes.length }

/-- OBUF and OLEN together, which only a successful REORDER writes (10_state.md R23). -/
def State.setOutput (s : State) (out : Memory) (len : Nat) : State := { s with obuf := out, olen := len }

/-- The final accumulator and its two bytes, low byte in CRCLO (10_state.md R24, R25; 42_checksum.md R147). That ACC keeps the
final value after the command is DEDUCED (log entry 5, unsafe for a claim about ACC between commands). -/
def State.setChecksum (s : State) (a : Half) : State :=
  { s with acc := a, crcLo := lowByte a, crcHi := highByte a }

/-- STAT, which every completing command writes (10_state.md R26). -/
def State.setStat (s : State) (code : BitVec 1) : State := { s with stat := code }

/-- What is left for the host to do. -/
def State.setPending (s : State) (events : List HostEvent) : State := { s with pending := events }

/-- What the host has read last. -/
def State.setView (s : State) (v : HostView) : State := { s with view := some v }

end Sys2Proof.Machine
end

