-- ==== Sys2Proof/Machine/Flags.lean ====
section
/-! DEFINITION. STAT, the block's only flag: its two codes, and how a command completes with each
(10_state.md R26, 60_exceptions.md R180 to R185). -/

namespace Sys2Proof.Machine

/-- Completion code OK (R26). -/
def statOk : BitVec 1 := 0#1

/-- Completion code InvalidArgument (R26, R180). -/
def statInvalidArgument : BitVec 1 := 1#1

/-- A command completes without an error: STAT <- 0 (R26). -/
def complete (s : State) : Result := .next (s.setStat statOk)

/-- raise InvalidArgument, the block's one exception (R184): the command completes with STAT <- 1 and no other change. Nothing
is saved, no mode changes, control goes nowhere, and there is no return from it (R185). -/
def raiseInvalidArgument (s : State) : Result := .next (s.setStat statInvalidArgument)

end Sys2Proof.Machine
end

