-- ==== Sys2Proof/Machine/Operands.lean ====
section
/-! DEFINITION. What a command works on: the group size and the permutation a convention selects (30_encoding.md R89, R90;
40_reorder4.md R101 to R105; 41_reorder8.md R120 to R124), and the byte range a checksum form names (30_encoding.md R83). -/

namespace Sys2Proof.Machine

/-- The group size G(CONV) (R89). -/
def groupSize : Convention → Nat
  | .abcd => 4
  | .cdab => 4
  | .badc => 4
  | .dcba => 4
  | .abcdefgh => 8
  | .ghefcdab => 8
  | .badcfehg => 8
  | .hgfedcba => 8

/-- Output group A B C D (R105). -/
def id4 : List Nat := [0, 1, 2, 3]
/-- Output group D C B A (R105). -/
def rev4 : List Nat := [3, 2, 1, 0]
/-- Output group C D A B (R105). -/
def swh4 : List Nat := [2, 3, 0, 1]
/-- Output group B A D C (R105). -/
def swb4 : List Nat := [1, 0, 3, 2]
/-- Output group A B C D E F G H (R120). -/
def id8 : List Nat := [0, 1, 2, 3, 4, 5, 6, 7]
/-- Output group H G F E D C B A (R120). -/
def rev8 : List Nat := [7, 6, 5, 4, 3, 2, 1, 0]
/-- Output group C D A B G H E F (R120). DEDUCED: the spec's own reading D20 (log entry 8, unsafe). -/
def swp8 : List Nat := [2, 3, 0, 1, 6, 7, 4, 5]
/-- Output group B A D C F E H G (R120). DEDUCED: the spec's own reading D21 (log entry 8, unsafe). -/
def swb8 : List Nat := [1, 0, 3, 2, 5, 4, 7, 6]

/-- PERM(conv, hle), the multiplexer select (R90): the list P of input positions in output order. -/
def perm : Convention → Bool → List Nat
  | .abcd, true => rev4
  | .abcd, false => id4
  | .cdab, true => swh4
  | .cdab, false => swb4
  | .badc, true => swb4
  | .badc, false => swh4
  | .dcba, true => id4
  | .dcba, false => rev4
  | .abcdefgh, true => rev8
  | .abcdefgh, false => id8
  | .ghefcdab, true => rev8
  | .ghefcdab, false => swp8
  | .badcfehg, true => rev8
  | .badcfehg, false => swb8
  | .hgfedcba, true => id8
  | .hgfedcba, false => rev8

/-- A range of positions of IBUF: `len` bytes from `start` on (R83). -/
structure ByteRange where
  start : Nat
  len   : Nat
  deriving DecidableEq, Repr

/-- The range of CRC16.R START, LEN (R83). -/
def rangeExplicit (start len : Nat) : ByteRange := { start := start, len := len }

/-- The range of CRC16.P LEN: START = 0 (R83). -/
def rangePrefix (len : Nat) : ByteRange := { start := 0, len := len }

/-- The range of CRC16.F: START = 0, LEN = ILEN (R83). -/
def rangeFull (s : State) : ByteRange := { start := 0, len := s.ilen }

/-- The contract of a range: START + LEN at most ILEN (R83, 60_exceptions.md R188 (b)). -/
def rangeInside (s : State) (r : ByteRange) : Bool := decide (r.start + r.len ≤ s.ilen)

end Sys2Proof.Machine
end

