-- ==== Sys2Proof/Machine/Checksum.lean ====
section
/-! DEFINITION. The 16-bit cyclic checksum accumulator and the CRC16 commands (42_checksum.md R140 to R147). -/

namespace Sys2Proof.Machine

/-- INIT (R140). -/
def crcInit : Half := 0xFFFF#16

/-- POLY (R140). -/
def crcPoly : Half := 0xA001#16

/-- BitStep (R141): the low bit is tested before the logical shift. -/
def bitStep (a : Half) : Half := if a.getLsbD 0 then (a >>> 1) ^^^ crcPoly else a >>> 1

/-- Repeat BitStep. -/
def bitSteps : Nat → Half → Half
  | 0, a => a
  | n + 1, a => bitSteps n (bitStep a)

/-- ByteStep (R142): the byte into the low half, then eight bit steps. -/
def byteStep (a : Half) (b : Byte) : Half := bitSteps 8 (a ^^^ zext16 b)

/-- The accumulator after the bytes of a sequence in order, from a given start. -/
def crcFrom (a : Half) (bytes : List Byte) : Half := bytes.foldl byteStep a

/-- crc(m): the final accumulator over a byte sequence (R149). -/
def crcOf (bytes : List Byte) : Half := crcFrom crcInit bytes

/-- The loop of R143: ACC from INIT over the bytes of the range, ascending. -/
def crcLoop (s : State) (r : ByteRange) : Except Fault Half :=
  (List.range' r.start r.len).foldlM (fun a k => (bufRead s k).map (byteStep a)) crcInit

/-- CRC(start, len) under its contract (R143, R144): a range not inside the buffer is refused and nothing is written
(60_exceptions.md R188 (b)). -/
def checksum (r : ByteRange) (s : State) : Result :=
  if rangeInside s r then
    match crcLoop s r with
    | .ok a => complete (s.setChecksum a)
    | .error f => .fault f
  else .refused (.rangeOutsideBuffer r.start r.len)

/-- CRC16.R START, LEN (R144). -/
def execCrc16R (start len : Nat) (s : State) : Result := checksum (rangeExplicit start len) s

/-- CRC16.P LEN (R145). -/
def execCrc16P (len : Nat) (s : State) : Result := checksum (rangePrefix len) s

/-- CRC16.F (R146). -/
def execCrc16F (s : State) : Result := checksum (rangeFull s) s

end Sys2Proof.Machine
end

