-- ==== Sys2Proof/Machine/Permute.lean ====
section
/-! DEFINITION. The rule common to every REORDER command (40_reorder4.md R100, 41_reorder8.md R125). -/

namespace Sys2Proof.Machine

/-- OBUF[base + i] <- IBUF[base + P[i]], for the group whose first position is `base` (R100, gather by 00_scope.md R8). -/
def moveByte (s : State) (p : List Nat) (base : Nat) (out : Memory) (i : Nat) : Except Fault Memory :=
  (bufRead s (base + p.getD i 0)).map (obufWrite out (base + i))

/-- The inner loop of R100: the bytes of group `g`. -/
def moveGroup (s : State) (size : Nat) (p : List Nat) (out : Memory) (g : Nat) : Except Fault Memory :=
  (List.range size).foldlM (moveByte s p (g * size)) out

/-- The outer loop of R100, over the disjoint consecutive groups of 20_memory.md R53, into a fresh output buffer (R65). -/
def gather (s : State) (size : Nat) (p : List Nat) : Except Fault Memory :=
  (List.range (s.ilen / size)).foldlM (moveGroup s size p) []

/-- REORDER(conv) (R100): validate the length, then gather every group. -/
def reorder (conv : Convention) (s : State) : Result :=
  if s.ilen = 0 then raiseInvalidArgument s
  else if s.ilen % groupSize conv ≠ 0 then raiseInvalidArgument s
  else
    match gather s (groupSize conv) (perm conv s.hle) with
    | .ok out => complete (s.setOutput out s.ilen)
    | .error f => .fault f

end Sys2Proof.Machine
end

