-- ==== Sys2Proof/Machine/Reorder4.lean ====
section
/-! DEFINITION. The REORDER commands of the 4-byte family (40_reorder4.md R101 to R104). -/

namespace Sys2Proof.Machine

/-- REORDER.ABCD (R101). -/
def execReorderAbcd (s : State) : Result := reorder .abcd s

/-- REORDER.CDAB (R102). -/
def execReorderCdab (s : State) : Result := reorder .cdab s

/-- REORDER.BADC (R103). -/
def execReorderBadc (s : State) : Result := reorder .badc s

/-- REORDER.DCBA (R104). -/
def execReorderDcba (s : State) : Result := reorder .dcba s

end Sys2Proof.Machine
end

