-- ==== Sys2Proof/Machine/Reorder8.lean ====
section
/-! DEFINITION. The REORDER commands of the 8-byte family (41_reorder8.md R121 to R124). -/

namespace Sys2Proof.Machine

/-- REORDER.ABCDEFGH (R121). -/
def execReorderAbcdefgh (s : State) : Result := reorder .abcdefgh s

/-- REORDER.GHEFCDAB (R122). -/
def execReorderGhefcdab (s : State) : Result := reorder .ghefcdab s

/-- REORDER.BADCFEHG (R123). -/
def execReorderBadcfehg (s : State) : Result := reorder .badcfehg s

/-- REORDER.HGFEDCBA (R124). -/
def execReorderHgfedcba (s : State) : Result := reorder .hgfedcba s

end Sys2Proof.Machine
end

