-- ==== Sys2Proof/Machine/Dispatch.lean ====
section
/-! DEFINITION. One arm per command, each one call of its meaning. -/

namespace Sys2Proof.Machine

def exec (i : Instr) (s : State) : Host.Outcome State Fault Refusal :=
  match i with
  -- the 4-byte family
  | .reorderAbcd => Sys2Proof.Machine.execReorderAbcd s
  | .reorderCdab => Sys2Proof.Machine.execReorderCdab s
  | .reorderBadc => Sys2Proof.Machine.execReorderBadc s
  | .reorderDcba => Sys2Proof.Machine.execReorderDcba s
  -- the 8-byte family
  | .reorderAbcdefgh => Sys2Proof.Machine.execReorderAbcdefgh s
  | .reorderGhefcdab => Sys2Proof.Machine.execReorderGhefcdab s
  | .reorderBadcfehg => Sys2Proof.Machine.execReorderBadcfehg s
  | .reorderHgfedcba => Sys2Proof.Machine.execReorderHgfedcba s
  -- the checksum
  | .crc16R start len => Sys2Proof.Machine.execCrc16R start len s
  | .crc16P len => Sys2Proof.Machine.execCrc16P len s
  | .crc16F => Sys2Proof.Machine.execCrc16F s

end Sys2Proof.Machine
end

