-- ==== Sys2Proof/WellFormed.lean ====
section
/-! DEFINITION. The host's contracts, as checks on what it presents (30_encoding.md R83, 20_memory.md R51, R66). A command has
no ill-formed operand by itself: its operands are naturals, and only the length of the loaded buffer bounds them. -/

namespace Sys2Proof

/-- The contract of a command against the length of the input buffer: START + LEN at most ILEN for a checksum (R144, R145); no
contract for the full form (R146) or a REORDER, whose bad length is an error the block reports (R181). -/
def Instr.inContract (ilen : Nat) : Instr → Bool
  | .crc16R start len => decide (start + len ≤ ilen)
  | .crc16P len => decide (len ≤ ilen)
  | .crc16F => true
  | .reorderAbcd => true
  | .reorderCdab => true
  | .reorderBadc => true
  | .reorderDcba => true
  | .reorderAbcdefgh => true
  | .reorderGhefcdab => true
  | .reorderBadcfehg => true
  | .reorderHgfedcba => true

/-- A buffer of `n` bytes may be loaded: at most MAXLEN, where `none` is unbounded (R5, R51). -/
def withinMaxLen (maxLen : Option Nat) (n : Nat) : Bool :=
  match maxLen with
  | none => true
  | some m => decide (n ≤ m)

end Sys2Proof
end

