-- ==== Sys2Proof/Machine/HostActions.lean ====
section
/-! DEFINITION. The host actions LOAD and READ (20_memory.md R66), and the reset event (70_reset_and_hazards.md R200). -/

namespace Sys2Proof.Machine

/-- LOAD(bytes): IBUF and ILEN, nothing else. A buffer longer than MAXLEN cannot exist (R51): DESIGN CHOICE (log entry 3,
safe), it is refused. -/
def execLoad (bytes : List Byte) (s : State) : Result :=
  if withinMaxLen s.maxLen bytes.length then .next (s.setInput bytes) else .refused (.loadTooLong bytes.length)

/-- What a READ observes: OBUF[0 .. OLEN-1], OLEN, CRCLO, CRCHI, STAT (20_memory.md R66). CFG.HLE is not among them, where
10_state.md R32 leaves open whether the host can read it back: DESIGN CHOICE (log entry 14). Before the first CRC16 command
CRCLO and CRCHI are the unconstrained constants of the reset: DESIGN CHOICE (log entry 4). -/
def observe (s : State) : HostView where
  obuf := s.obuf.bytes 0 s.olen
  olen := s.olen
  crcLo := s.crcLo
  crcHi := s.crcHi
  stat := s.stat

/-- READ: the host observes; nothing of the block changes. DESIGN CHOICE (log entry 6, safe): the observation is kept in
`view`. -/
def execRead (s : State) : Result := .next (s.setView (observe s))

/-- The reset event (R200): every element at its value of 10_state.md R31. HOST_LE is constant through the life of the system
(90_conflicts.md C7), so the value latched again is the one CFG.HLE holds. What the host still has to do and has read is the
host's and stays. DESIGN CHOICE (log entry 13, unsafe): R200 leaves a model free to have no such transition. -/
def execReset (s : State) : Result :=
  .next { State.afterReset s.hle s.maxLen s.resets with pending := s.pending, view := s.view }

end Sys2Proof.Machine
end

