-- ==== Sys2Proof/Machine/Issue.lean ====
section
/-! DEFINITION. Taking the host's next event and acting on it (20_memory.md R60, R66; 60_exceptions.md R183, R188). -/

namespace Sys2Proof.Machine

/-- The host's next event, with the state in which it is no longer pending. -/
def nextEvent (s : State) : Option (HostEvent × State) :=
  match s.pending with
  | [] => none
  | e :: rest => some (e, s.setPending rest)

/-- A presented command: a reserved word is refused before any other test (R183, R188 (a)); a command runs. -/
def issue (r : Request) (s : State) : Result :=
  match decode r with
  | .ok i => exec i s
  | .error (.reservedWord w) => .refused (.reservedCommandWord w)

/-- One element of a run (70_reset_and_hazards.md R207). -/
def act (e : HostEvent) (s : State) : Result :=
  match e with
  | .load bytes => execLoad bytes s
  | .read => execRead s
  | .command r => issue r s
  | .reset => execReset s

/-- Nothing is presented: the block is idle and nothing executes by itself (R200). DESIGN CHOICE (log entry 1, safe): a step
then changes nothing. -/
def idle (s : State) : Result := .next s

end Sys2Proof.Machine
end

