-- ==== Sys2Proof/Machine/Step.lean ====
section
/-! DEFINITION. One step of the machine: the host's next action or command, whole and atomic (20_memory.md R60). -/

namespace Sys2Proof.Machine

/-- One step: the next pending event acts; with none pending the block is idle. -/
def step (s : State) : Host.Outcome State Fault Refusal :=
  match nextEvent s with
  | none => idle s
  | some (e, s') => act e s'

/-- The state in which the command of a table word is presented next (log entry 1). The block fetches nothing (10_state.md R27):
presenting the word with operands 0 is what makes the next step run it. -/
def State.withFetchWord (s : State) (nbits w : Nat) : State :=
  s.setPending (.command (requestOfTableWord nbits w) :: s.pending)

end Sys2Proof.Machine
end

