-- ==== Sys2Proof/Safety.lean ====
section
/-! DEFINITION. The terms claims are stated in: the invariant of a run, what a command leaves alone, what a REORDER and a
checksum leave behind, and the two environment contracts that give the buffers their meaning
(10_state.md R32; 40_reorder4.md R100; 42_checksum.md R143; 45_environment_contracts.md R160, R162). -/

namespace Sys2Proof.Machine

/-- Both buffers are in canonical form, hold positions below their length only, and are no longer than MAXLEN
(10_state.md R22, R23; 20_memory.md R51, R58). -/
abbrev State.Inv (s : State) : Prop :=
  s.ibuf.wf = true ∧ s.ibuf.below s.ilen = true ∧ s.obuf.wf = true ∧ s.obuf.below s.olen = true ∧
    withinMaxLen s.maxLen s.ilen = true ∧ withinMaxLen s.maxLen s.olen = true

/-- IBUF and ILEN are as they were. -/
def SameInput (s t : State) : Prop := t.ilen = s.ilen ∧ t.ibuf = s.ibuf

/-- OBUF and OLEN are as they were. -/
def SameOutput (s t : State) : Prop := t.olen = s.olen ∧ t.obuf = s.obuf

/-- CFG, and the constant MAXLEN, are as they were. -/
def SameConfig (s t : State) : Prop := t.hle = s.hle ∧ t.maxLen = s.maxLen

/-- ACC, CRCLO and CRCHI are as they were. -/
def SameChecksum (s t : State) : Prop := t.acc = s.acc ∧ t.crcLo = s.crcLo ∧ t.crcHi = s.crcHi

/-- What the host will do, what it has read and the count of resets are as they were. -/
def SameHost (s t : State) : Prop := t.pending = s.pending ∧ t.view = s.view ∧ t.resets = s.resets

/-- The frame of a successful REORDER: all but OBUF, OLEN and STAT (R100). -/
def KeepsAllButOutput (s t : State) : Prop := SameInput s t ∧ SameConfig s t ∧ SameChecksum s t ∧ SameHost s t

/-- The frame of a checksum command: all but ACC, CRCLO, CRCHI and STAT (R143). -/
def KeepsAllButChecksum (s t : State) : Prop := SameInput s t ∧ SameOutput s t ∧ SameConfig s t ∧ SameHost s t

/-- The length test of a REORDER with groups of `size` bytes passes (R100, R181). -/
abbrev Admitted (size : Nat) (s : State) : Prop := s.ilen ≠ 0 ∧ s.ilen % size = 0

/-- What a successful REORDER leaves (R100): every byte of every group gathered by `p`, no position at or above OLEN (it
reads as unlisted, the model's way to say so, log entry 7), and the frame. -/
def Reordered (size : Nat) (p : List Nat) (s t : State) : Prop :=
  t.olen = s.ilen ∧ t.stat = 0#1 ∧
    (∀ g i, g < s.ilen / size → i < size →
      t.obuf.read (g * size + i) = s.ibuf.read (g * size + p.getD i 0)) ∧
    (∀ a, s.ilen ≤ a → t.obuf.read a = Memory.unlisted) ∧
    KeepsAllButOutput s t

/-- What a checksum command leaves (R143): the two bytes of the final accumulator over the range, STAT, and the frame. -/
def Checksummed (start len : Nat) (s t : State) : Prop :=
  let final := (s.ibuf.bytes start len).foldl byteStep 0xFFFF#16
  t.crcLo = final.extractLsb' 0 8 ∧ t.crcHi = final.extractLsb' 8 8 ∧ t.stat = 0#1 ∧ KeepsAllButChecksum s t

/-- A whole command rule of 40_reorder4.md or 41_reorder8.md: the encoding, the result with the permutation for each host
order, and the one exception. -/
def ReorderRule (word : BitVec 4) (i : Instr) (size : Nat) (little big : List Nat) : Prop :=
  (∀ start len, decode { word := word, start := start, len := len } = .ok i) ∧
  (∀ s, Admitted size s → ∃ t, exec i s = .next t ∧ Reordered size (if s.hle then little else big) s t) ∧
  (∀ s, ¬ Admitted size s → exec i s = .next { s with stat := 1#1 })

/-- The frame said over the bytes a checksum result is compared on: the two result bytes agree. -/
def SameResultBytes (s t : State) : Prop := t.crcLo = s.crcLo ∧ t.crcHi = s.crcHi

/-- The operands a command takes are the presented ones (30_encoding.md R83). -/
def operandsMatch (i : Instr) (r : Request) : Prop :=
  match i with
  | .crc16R start len => start = r.start ∧ len = r.len
  | .crc16P len => len = r.len
  | .crc16F => True
  | .reorderAbcd => True
  | .reorderCdab => True
  | .reorderBadc => True
  | .reorderDcba => True
  | .reorderAbcdefgh => True
  | .reorderGhefcdab => True
  | .reorderBadcfehg => True
  | .reorderHgfedcba => True

/-- The Register Packer, the environment's contract for what feeds IBUF: high byte, then low byte (R160). -/
def pack (registers : List Half) : List Byte := registers.flatMap fun r => [highByte r, lowByte r]

/-- The value of a byte sequence, most significant byte first. -/
def bigValue (m : List Byte) : Nat := m.foldl (fun v b => v * 256 + b.toNat) 0

/-- A native read of a group on the platform, the environment's contract for what consumes OBUF (R162). -/
def nativeRead (little : Bool) (m : List Byte) : Nat := if little then bigValue m.reverse else bigValue m

/-- The table of 45_environment_contracts.md R166: the input positions of a group in the order of significance of the value
a consumer reads, most significant first. -/
def significance : Convention → Bool → List Nat
  | .abcd, _ => [0, 1, 2, 3]
  | .cdab, _ => [1, 0, 3, 2]
  | .badc, _ => [2, 3, 0, 1]
  | .dcba, _ => [3, 2, 1, 0]
  | .abcdefgh, _ => [0, 1, 2, 3, 4, 5, 6, 7]
  | .ghefcdab, true => [0, 1, 2, 3, 4, 5, 6, 7]
  | .ghefcdab, false => [2, 3, 0, 1, 6, 7, 4, 5]
  | .badcfehg, true => [0, 1, 2, 3, 4, 5, 6, 7]
  | .badcfehg, false => [1, 0, 3, 2, 5, 4, 7, 6]
  | .hgfedcba, _ => [7, 6, 5, 4, 3, 2, 1, 0]

end Sys2Proof.Machine
end

