-- ==== Sys2Proof/Certificates/Slice0/Obligations.lean ====
section
/-! DEFINITION. The statements for the provers. Each docstring names the rules or sections of spec/ it formalises. -/

open Sys2Proof Sys2Proof.Machine

/-! ### Encoding and presentation -/

/-- 30_encoding.md R84: all sixteen command words, with any operands on the port. -/
def Obligations.CommandWordsDecodeByTable : Prop :=
  ∀ start len : Nat,
    decode { word := 0x0#4, start := start, len := len } = .ok .reorderAbcd ∧
    decode { word := 0x1#4, start := start, len := len } = .ok .reorderCdab ∧
    decode { word := 0x2#4, start := start, len := len } = .ok .reorderBadc ∧
    decode { word := 0x3#4, start := start, len := len } = .ok .reorderDcba ∧
    decode { word := 0x4#4, start := start, len := len } = .ok .reorderAbcdefgh ∧
    decode { word := 0x5#4, start := start, len := len } = .ok .reorderGhefcdab ∧
    decode { word := 0x6#4, start := start, len := len } = .ok .reorderBadcfehg ∧
    decode { word := 0x7#4, start := start, len := len } = .ok .reorderHgfedcba ∧
    decode { word := 0x8#4, start := start, len := len } = .ok (.crc16R start len) ∧
    decode { word := 0x9#4, start := start, len := len } = .ok (.crc16P len) ∧
    decode { word := 0xA#4, start := start, len := len } = .ok .crc16F ∧
    ∀ w : BitVec 4, 0xB ≤ w.toNat →
      decode { word := w, start := start, len := len } = .error (.reservedWord w)

/-- 30_encoding.md sections 1 to 3: a command decodes from what it encodes to, and a request decodes to a command exactly
where the word is the command's and the operands the form takes are the command's. -/
def Obligations.DecodeAndEncodeAgree : Prop :=
  (∀ i, decode (encode i) = .ok i) ∧
  (∀ r i, decode r = .ok i ↔ (encode i).word = r.word ∧ operandsMatch i r)

/-- 30_encoding.md section 5, the group size function: bit 2 of CONV. -/
def Obligations.GroupSizeFromConventionBit : Prop :=
  ∀ c, groupSize c = if (fieldOfConvention c).getLsbD 2 then 8 else 4

/-- 30_encoding.md R85: a reserved command word is refused in every state, whatever the operands. -/
def Obligations.ReservedWordsRefused : Prop :=
  ∀ s r rest, s.pending = .command r :: rest → 0xB ≤ r.word.toNat →
    step s = .refused (.reservedCommandWord r.word)

/-- 20_memory.md section 4, 70_reset_and_hazards.md section 3: the step that has a command presented runs it. -/
def Obligations.StepRunsPresentedCommand : Prop :=
  ∀ s r rest i, s.pending = .command r :: rest → decode r = .ok i → step s = exec i { s with pending := rest }

/-- 70_reset_and_hazards.md section 1 (nothing executes by itself). That an idle step changes nothing is the model's choice,
log entry 1. -/
def Obligations.IdleStepChangesNothing : Prop :=
  ∀ s, s.pending = [] → step s = .next s

/-- 20_memory.md section 4 (issue order): a run of n steps has consumed the first n elements of the host's sequence. The
sequence held in the state is the model's choice, log entry 1. -/
def Obligations.RunConsumesSequenceInOrder : Prop :=
  ∀ n s t, Host.Core.run core n s = .next t → t.pending = s.pending.drop n

/-! ### Host actions -/

/-- 20_memory.md section 4, LOAD. -/
def Obligations.LoadReplacesInputOnly : Prop :=
  ∀ s bytes rest, s.pending = .load bytes :: rest → withinMaxLen s.maxLen bytes.length = true →
    ∃ t, step s = .next t ∧ t.ilen = bytes.length ∧
      (∀ k (h : k < bytes.length), t.ibuf.read k = bytes[k]) ∧
      (∀ k, bytes.length ≤ k → t.ibuf.read k = Memory.unlisted) ∧
      SameOutput s t ∧ SameConfig s t ∧ SameChecksum s t ∧ t.stat = s.stat ∧ t.view = s.view ∧ t.pending = rest ∧
      t.resets = s.resets

/-- 20_memory.md section 4, READ. Three things are the model's choice: that READ completes before the first CRC16 command
too and delivers what CRCLO and CRCHI hold, where the spec gives these bytes no result (log entry 4); that the observation is
kept in `view` (log entry 6); that CFG.HLE is not observed (log entry 14). -/
def Obligations.ReadObservesResults : Prop :=
  ∀ s rest, s.pending = .read :: rest →
    ∃ t v, step s = .next t ∧ t = { s with pending := rest, view := some v } ∧
      v.obuf.length = s.olen ∧ (∀ k (h : k < v.obuf.length), v.obuf[k] = s.obuf.read k) ∧
      v.olen = s.olen ∧ v.crcLo = s.crcLo ∧ v.crcHi = s.crcHi ∧ v.stat = s.stat

/-- 20_memory.md section 1 (a longer buffer cannot exist). That the step refuses it is the model's choice, log entry 3. -/
def Obligations.LoadBeyondMaxLenRefused : Prop :=
  ∀ s bytes rest m, s.pending = .load bytes :: rest → s.maxLen = some m → m < bytes.length →
    step s = .refused (.loadTooLong bytes.length)

/-! ### REORDER -/

/-- 40_reorder4.md R101, with its corner case: on a little-endian host the command applied twice restores the bytes. -/
def Obligations.ReorderAbcdRule : Prop :=
  ReorderRule 0x0#4 .reorderAbcd 4 [3, 2, 1, 0] [0, 1, 2, 3] ∧
  (∀ s t v, s.hle = true → exec .reorderAbcd s = .next t → t.stat = 0#1 → execLoad (observe t).obuf t = .next v →
    ∃ u, exec .reorderAbcd v = .next u ∧ ∀ k, k < s.ilen → u.obuf.read k = s.ibuf.read k)

/-- 40_reorder4.md R102. -/
def Obligations.ReorderCdabRule : Prop := ReorderRule 0x1#4 .reorderCdab 4 [2, 3, 0, 1] [1, 0, 3, 2]

/-- 40_reorder4.md R103. -/
def Obligations.ReorderBadcRule : Prop := ReorderRule 0x2#4 .reorderBadc 4 [1, 0, 3, 2] [2, 3, 0, 1]

/-- 40_reorder4.md R104. -/
def Obligations.ReorderDcbaRule : Prop := ReorderRule 0x3#4 .reorderDcba 4 [0, 1, 2, 3] [3, 2, 1, 0]

/-- 41_reorder8.md R121. -/
def Obligations.ReorderAbcdefghRule : Prop :=
  ReorderRule 0x4#4 .reorderAbcdefgh 8 [7, 6, 5, 4, 3, 2, 1, 0] [0, 1, 2, 3, 4, 5, 6, 7]

/-- 41_reorder8.md section 2. The big-endian list is the spec's own reading D20 (92_eei_decisions.md), log entry 8. -/
def Obligations.ReorderGhefcdabRule : Prop :=
  ReorderRule 0x5#4 .reorderGhefcdab 8 [7, 6, 5, 4, 3, 2, 1, 0] [2, 3, 0, 1, 6, 7, 4, 5]

/-- 41_reorder8.md section 2. The big-endian list is the spec's own reading D21 (92_eei_decisions.md), log entry 8. -/
def Obligations.ReorderBadcfehgRule : Prop :=
  ReorderRule 0x6#4 .reorderBadcfehg 8 [7, 6, 5, 4, 3, 2, 1, 0] [1, 0, 3, 2, 5, 4, 7, 6]

/-- 41_reorder8.md R124. -/
def Obligations.ReorderHgfedcbaRule : Prop :=
  ReorderRule 0x7#4 .reorderHgfedcba 8 [0, 1, 2, 3, 4, 5, 6, 7] [7, 6, 5, 4, 3, 2, 1, 0]

/-- 60_exceptions.md R181: a REORDER, and only a REORDER, raises InvalidArgument, in exactly the two cases. CMD[2] is CONV[2],
which is 1 for the 8-byte family. -/
def Obligations.InvalidArgumentRaisedExactly : Prop :=
  ∀ i s,
    (i.convention?.isSome = true →
      (s.ilen = 0 ∨ s.ilen % (if (encode i).word.getLsbD 2 then 8 else 4) ≠ 0) →
      ∃ t, exec i s = .next t ∧ t.stat = 1#1) ∧
    (∀ t, exec i s = .next t → t.stat = 1#1 →
      i.convention?.isSome = true ∧
        (s.ilen = 0 ∨ s.ilen % (if (encode i).word.getLsbD 2 then 8 else 4) ≠ 0))

/-- 60_exceptions.md R184: a REORDER that raises InvalidArgument completes with STAT = 1 and everything else as it was. -/
def Obligations.FailedReorderWritesStatOnly : Prop :=
  ∀ i c s, i.convention? = some c → ¬ Admitted (groupSize c) s → exec i s = .next { s with stat := 1#1 }

/-- 40_reorder4.md section 4 (a), 41_reorder8.md section 4 (a): the length is kept, and an output group holds the bytes of the
input group at its index. -/
def Obligations.OutputGroupRearrangesInputGroup : Prop :=
  ∀ i c s t g, i.convention? = some c → exec i s = .next t → t.stat = 0#1 → g < s.ilen / groupSize c →
    t.olen = s.ilen ∧
    (t.obuf.bytes (g * groupSize c) (groupSize c)).Perm (s.ibuf.bytes (g * groupSize c) (groupSize c))

/-- 40_reorder4.md section 4 (e), 41_reorder8.md sections 3 and 4 (e), 20_memory.md section 2: an output group depends on the
input group at its index, the length, the command and the host order only. -/
def Obligations.GroupsIndependent : Prop :=
  ∀ i c s s' t t' g, i.convention? = some c → s'.ilen = s.ilen → s'.hle = s.hle →
    exec i s = .next t → exec i s' = .next t' → t.stat = 0#1 → g < s.ilen / groupSize c →
    (∀ k, k < groupSize c → s'.ibuf.read (g * groupSize c + k) = s.ibuf.read (g * groupSize c + k)) →
    ∀ k, k < groupSize c → t'.obuf.read (g * groupSize c + k) = t.obuf.read (g * groupSize c + k)

/-- 40_reorder4.md section 4 (b), 41_reorder8.md section 4 (b): a command, its output loaded back by LOAD, the same command
again: the original bytes. -/
def Obligations.ReorderTwiceRestoresInput : Prop :=
  ∀ i c s t v, i.convention? = some c → exec i s = .next t → t.stat = 0#1 →
    execLoad (observe t).obuf t = .next v →
    ∃ u, exec i v = .next u ∧ u.stat = 0#1 ∧ u.olen = s.ilen ∧ ∀ k, k < s.ilen → u.obuf.read k = s.ibuf.read k

/-- 40_reorder4.md section 4 (c): the little-endian output group is the big-endian output group reversed. -/
def Obligations.HostRelationFourByte : Prop :=
  ∀ i c s s' t t' g k, i.convention? = some c → groupSize c = 4 → s.hle = true → s'.hle = false →
    SameInput s s' → exec i s = .next t → exec i s' = .next t' → t.stat = 0#1 →
    g < s.ilen / 4 → k < 4 → t.obuf.read (g * 4 + k) = t'.obuf.read (g * 4 + (3 - k))

/-- 41_reorder8.md section 4 (c): the host relation for ABCDEFGH and HGFEDCBA; for GHEFCDAB and BADCFEHG some input breaks
it, on the readings D20 and D21 (log entry 8). -/
def Obligations.HostRelationEightByte : Prop :=
  (∀ i c s s' t t' g k, i.convention? = some c → (c = .abcdefgh ∨ c = .hgfedcba) → s.hle = true → s'.hle = false →
    SameInput s s' → exec i s = .next t → exec i s' = .next t' → t.stat = 0#1 →
    g < s.ilen / 8 → k < 8 → t.obuf.read (g * 8 + k) = t'.obuf.read (g * 8 + (7 - k))) ∧
  (∀ i c, i.convention? = some c → (c = .ghefcdab ∨ c = .badcfehg) →
    ∃ s s' t t' k, s.hle = true ∧ s'.hle = false ∧ SameInput s s' ∧ exec i s = .next t ∧ exec i s' = .next t' ∧
      t.stat = 0#1 ∧ k < 8 ∧ t.obuf.read k ≠ t'.obuf.read (7 - k))

/-- 41_reorder8.md section 4 (d): on a little-endian host three of the four 8-byte commands are one function; on a big-endian
host the input A0 to A7 tells all four apart. The two middle big-endian outputs rest on D20 and D21 (log entry 8). -/
def Obligations.EightByteCommandsCompared : Prop :=
  (∀ s, s.hle = true → exec .reorderGhefcdab s = exec .reorderAbcdefgh s ∧
    exec .reorderBadcfehg s = exec .reorderAbcdefgh s) ∧
  (∀ s, s.hle = false → s.ilen = 8 →
    s.ibuf.bytes 0 8 = [0xA0#8, 0xA1#8, 0xA2#8, 0xA3#8, 0xA4#8, 0xA5#8, 0xA6#8, 0xA7#8] →
    ∃ t₁ t₂ t₃ t₄, exec .reorderAbcdefgh s = .next t₁ ∧ exec .reorderGhefcdab s = .next t₂ ∧
      exec .reorderBadcfehg s = .next t₃ ∧ exec .reorderHgfedcba s = .next t₄ ∧
      t₁.obuf.bytes 0 8 = [0xA0#8, 0xA1#8, 0xA2#8, 0xA3#8, 0xA4#8, 0xA5#8, 0xA6#8, 0xA7#8] ∧
      t₂.obuf.bytes 0 8 = [0xA2#8, 0xA3#8, 0xA0#8, 0xA1#8, 0xA6#8, 0xA7#8, 0xA4#8, 0xA5#8] ∧
      t₃.obuf.bytes 0 8 = [0xA1#8, 0xA0#8, 0xA3#8, 0xA2#8, 0xA5#8, 0xA4#8, 0xA7#8, 0xA6#8] ∧
      t₄.obuf.bytes 0 8 = [0xA7#8, 0xA6#8, 0xA5#8, 0xA4#8, 0xA3#8, 0xA2#8, 0xA1#8, 0xA0#8])

/-- 45_environment_contracts.md section 2 (the value table): what a platform of the latched byte order reads from a group of
OBUF, for all eight conventions and both hosts. The two 8-byte big-endian rows rest on D20 and D21 (log entry 8). -/
def Obligations.ConsumerValueTable : Prop :=
  ∀ i c s t g, i.convention? = some c → exec i s = .next t → t.stat = 0#1 → g < s.ilen / groupSize c →
    nativeRead s.hle (t.obuf.bytes (g * groupSize c) (groupSize c)) =
      bigValue ((significance c s.hle).map fun j => s.ibuf.read (g * groupSize c + j))

/-- 20_memory.md section 2, 45_environment_contracts.md section 1: after the packed registers are loaded, register i stands
in positions 2i and 2i+1, high byte first. -/
def Obligations.PackedRegistersInInput : Prop :=
  ∀ (s : State) (regs : List Half), withinMaxLen s.maxLen (2 * regs.length) = true →
    ∃ t, execLoad (pack regs) s = .next t ∧ t.ilen = 2 * regs.length ∧
      ∀ i (h : i < regs.length), t.ibuf.read (2 * i) = regs[i].extractLsb' 8 8 ∧
        t.ibuf.read (2 * i + 1) = regs[i].extractLsb' 0 8

/-! ### Checksum -/

/-- 42_checksum.md section 1 (the bit step), bit by bit. -/
def Obligations.BitStepBitByBit : Prop :=
  ∀ a : Half,
    (bitStep a).getLsbD 15 = a.getLsbD 0 ∧ (bitStep a).getLsbD 14 = a.getLsbD 15 ∧
    (bitStep a).getLsbD 13 = (a.getLsbD 14 ^^ a.getLsbD 0) ∧
    (∀ k, 1 ≤ k → k ≤ 12 → (bitStep a).getLsbD k = a.getLsbD (k + 1)) ∧
    (bitStep a).getLsbD 0 = (a.getLsbD 1 ^^ a.getLsbD 0)

/-- 42_checksum.md R142. -/
def Obligations.ByteStepIsEightBitSteps : Prop :=
  ∀ (a : Half) (b : Byte),
    byteStep a b = bitStep^[8] (a ^^^ b.setWidth 16) ∧
    (a ^^^ b.setWidth 16).extractLsb' 8 8 = a.extractLsb' 8 8 ∧
    (a ^^^ b.setWidth 16).extractLsb' 0 8 = a.extractLsb' 0 8 ^^^ b

/-- 42_checksum.md R144. -/
def Obligations.CrcRangeRule : Prop :=
  (∀ start len, decode { word := 0x8#4, start := start, len := len } = .ok (.crc16R start len)) ∧
  (∀ s start len, start + len ≤ s.ilen → ∃ t, exec (.crc16R start len) s = .next t ∧ Checksummed start len s t) ∧
  (∀ s start, start ≤ s.ilen → ∃ t, exec (.crc16R start 0) s = .next t ∧ t.crcLo = 0xFF#8 ∧ t.crcHi = 0xFF#8) ∧
  (∀ s start len, s.ilen < start + len → exec (.crc16R start len) s = .refused (.rangeOutsideBuffer start len)) ∧
  (∀ s, s.ilen = 8 → s.ibuf.bytes 0 8 = [0xAA#8, 0x01#8, 0x03#8, 0x00#8, 0x00#8, 0x00#8, 0x0A#8, 0xBB#8] →
    ∃ t, exec (.crc16R 1 6) s = .next t ∧ t.crcLo = 0xC5#8 ∧ t.crcHi = 0xCD#8)

/-- 42_checksum.md R145. -/
def Obligations.CrcPrefixRule : Prop :=
  (∀ start len, decode { word := 0x9#4, start := start, len := len } = .ok (.crc16P len)) ∧
  (∀ s len, len ≤ s.ilen → ∃ t, exec (.crc16P len) s = .next t ∧ Checksummed 0 len s t) ∧
  (∀ s len, exec (.crc16P len) s = exec (.crc16R 0 len) s) ∧
  (∀ s len, s.ilen < len → exec (.crc16P len) s = .refused (.rangeOutsideBuffer 0 len)) ∧
  (∀ s, ∃ t, exec (.crc16P 0) s = .next t ∧ t.crcLo = 0xFF#8 ∧ t.crcHi = 0xFF#8) ∧
  (∀ s, exec (.crc16P s.ilen) s = exec .crc16F s) ∧
  (∀ s, s.ilen = 8 → s.ibuf.bytes 0 8 = [0x01#8, 0x03#8, 0x00#8, 0x00#8, 0x00#8, 0x0A#8, 0x99#8, 0x98#8] →
    ∃ t, exec (.crc16P 6) s = .next t ∧ t.crcLo = 0xC5#8 ∧ t.crcHi = 0xCD#8)

/-- 42_checksum.md R146. -/
def Obligations.CrcFullRule : Prop :=
  (∀ start len, decode { word := 0xA#4, start := start, len := len } = .ok .crc16F) ∧
  (∀ s, ∃ t, exec .crc16F s = .next t ∧ Checksummed 0 s.ilen s t) ∧
  (∀ s, exec .crc16F s = exec (.crc16R 0 s.ilen) s) ∧
  (∀ s, s.ilen = 0 → ∃ t, exec .crc16F s = .next t ∧ t.crcLo = 0xFF#8 ∧ t.crcHi = 0xFF#8) ∧
  (∀ s, s.ilen = 6 → s.ibuf.bytes 0 6 = [0x01#8, 0x03#8, 0x00#8, 0x00#8, 0x00#8, 0x0A#8] →
    ∃ t, exec .crc16F s = .next t ∧ t.crcLo = 0xC5#8 ∧ t.crcHi = 0xCD#8) ∧
  [1, 2, 3, 4, 5, 6].map (fun n => crcOf ([0x01#8, 0x03#8, 0x00#8, 0x00#8, 0x00#8, 0x0A#8].take n)) =
    [0x807E#16, 0x2140#16, 0xF020#16, 0xD8F1#16, 0x8419#16, 0xCDC5#16]

/-- 42_checksum.md sections 1 and 3 (output order): the pair is the final accumulator, low byte first. That ACC still holds
the final value after the command is the model's choice, log entry 5. -/
def Obligations.ChecksumPairFromAccumulator : Prop :=
  ∀ i s t, i.convention? = none → exec i s = .next t →
    t.crcLo = t.acc.extractLsb' 0 8 ∧ t.crcHi = t.acc.extractLsb' 8 8 ∧
      t.crcHi.toNat * 256 + t.crcLo.toNat = t.acc.toNat

/-- 60_exceptions.md R182. -/
def Obligations.ChecksumNeverRaises : Prop :=
  ∀ i s, i.convention? = none →
    (i.inContract s.ilen = true → ∃ t, exec i s = .next t ∧ t.stat = 0#1) ∧
    (∀ t, exec i s = .next t → t.stat = 0#1)

/-- 10_state.md section 4 (the accumulator): a checksum command does not depend on the accumulator or the result bytes an
earlier command left. -/
def Obligations.ChecksumForgetsPreviousResult : Prop :=
  ∀ i s a lo hi, i.convention? = none → exec i { s with acc := a, crcLo := lo, crcHi := hi } = exec i s

/-- 42_checksum.md section 3, 45_environment_contracts.md section 3: the two ways to verify a frame accept the same frames,
namely recomputing over the body and comparing, and computing over the whole frame and testing for zero. -/
def Obligations.FrameVerificationWaysAgree : Prop :=
  ∀ s n, s.ilen = n + 2 →
    ∃ t u, exec (.crc16P n) s = .next t ∧ exec .crc16F s = .next u ∧
      ((u.crcLo = 0#8 ∧ u.crcHi = 0#8) ↔ (s.ibuf.read n = t.crcLo ∧ s.ibuf.read (n + 1) = t.crcHi))

/-- 42_checksum.md section 3, law (c). -/
def Obligations.ChecksumAffinity : Prop :=
  ∀ x y : List Byte, x.length = y.length →
    crcOf (List.zipWith (· ^^^ ·) x y) = crcOf x ^^^ crcOf y ^^^ crcOf (List.replicate x.length 0#8)

/-- 42_checksum.md section 3, the table form. -/
def Obligations.ByteStepTableForm : Prop :=
  ∀ (a : Half) (b : Byte), byteStep a b = (a >>> 8) ^^^ byteStep 0#16 ((a ^^^ b.setWidth 16).extractLsb' 0 8)

/-- 42_checksum.md section 3, law (e): the range form on a buffer gives what the full form gives on the buffer that holds
exactly the range. -/
def Obligations.RangeFormAgreesWithFullForm : Prop :=
  ∀ s s' start n, start + n ≤ s.ilen → s'.ilen = n →
    (∀ k, k < n → s'.ibuf.read k = s.ibuf.read (start + k)) →
    ∃ t t', exec (.crc16R start n) s = .next t ∧ exec .crc16F s' = .next t' ∧ SameResultBytes t t'

/-- 42_checksum.md sections 1 and 3: order matters, two sequences collide, and the residue needs the right order. -/
def Obligations.ChecksumVectors : Prop :=
  crcOf [0x01#8, 0x03#8] = 0x2140#16 ∧ crcOf [0x03#8, 0x01#8] = 0x80C0#16 ∧
  crcOf [0x41#8, 0x42#8] = 0xD1B1#16 ∧ crcOf [0x11#8, 0x22#8, 0x33#8, 0x44#8] = 0xD1B1#16 ∧
  crcOf [0x01#8, 0x03#8, 0x00#8, 0x00#8, 0x00#8, 0x0A#8, 0xC5#8, 0xCD#8] = 0x0000#16 ∧
  crcOf [0x01#8, 0x03#8, 0x00#8, 0x00#8, 0x00#8, 0x0A#8, 0xCD#8, 0xC5#8] = 0x0606#16

/-- 30_encoding.md section 4: CRC16.T START is the checksum from START to the end, legal up to ILEN. -/
def Obligations.TailPseudoInstruction : Prop :=
  ∀ s start,
    (start ≤ s.ilen → ∃ i t, assembleTail s.ilen start = some i ∧ exec i s = .next t ∧
      Checksummed start (s.ilen - start) s t) ∧
    (s.ilen < start → assembleTail s.ilen start = none)

/-- 30_encoding.md section 4: a program assembles to one event a line, and a command line to a request that decodes to it. -/
def Obligations.AssembledProgramKeepsLines : Prop :=
  ∀ ilen lines events, assemble ilen lines = some events →
    events.length = lines.length ∧
    ∀ k (h : k < lines.length) i, lines[k] = .command i →
      ∃ r, events[k]? = some (.command r) ∧ decode r = .ok i

/-! ### The whole machine -/

/-- 60_exceptions.md R188: the commands that are refused, and no other. -/
def Obligations.OutOfContractCommandsRefused : Prop :=
  ∀ s r rest, s.pending = .command r :: rest →
    ((∃ why, step s = .refused why) ↔
      (0xB ≤ r.word.toNat ∨ (r.word = 0x8#4 ∧ s.ilen < r.start + r.len) ∨ (r.word = 0x9#4 ∧ s.ilen < r.len)))

/-- 70_reset_and_hazards.md section 3: every in-contract command completes in its one step. -/
def Obligations.InContractCommandsComplete : Prop :=
  ∀ i s, i.inContract s.ilen = true → ∃ t, exec i s = .next t

/-- 20_memory.md section 1: no rule reads IBUF at or beyond ILEN, in any state. -/
def Obligations.NoStepFaults : Prop :=
  ∀ s why, step s ≠ .fault why

/-- 10_state.md R32: who writes what, over every step but the reset event, and what a READ cannot see. -/
def Obligations.WriteAccessRights : Prop :=
  (∀ s t, step s = .next t → (∀ rest, s.pending ≠ .reset :: rest) →
    SameConfig s t ∧
    ((∀ bytes rest, s.pending ≠ .load bytes :: rest) → SameInput s t) ∧
    ((∀ r rest, s.pending = .command r :: rest → r.word.getLsbD 3 = true) → SameOutput s t) ∧
    ((∀ r rest, s.pending = .command r :: rest → r.word.getLsbD 3 = false) → SameChecksum s t) ∧
    ((∀ r rest, s.pending ≠ .command r :: rest) → t.stat = s.stat)) ∧
  (∀ (s : State) (a : Half), observe { s with acc := a } = observe s)

/-- 00_scope.md R2: PMUX neither writes nor reads the accumulator and the result, CSUM neither writes nor reads OBUF and
OLEN, and does not read the host byte order. -/
def Obligations.UnitsIndependent : Prop :=
  ∀ i s t, exec i s = .next t →
    (i.convention?.isSome = true → SameChecksum s t ∧
      ∀ a lo hi, exec i { s with acc := a, crcLo := lo, crcHi := hi } =
        .next { t with acc := a, crcLo := lo, crcHi := hi }) ∧
    (i.convention? = none → SameOutput s t ∧
      (∀ h, exec i { s with hle := h } = .next { t with hle := h }) ∧
      ∀ bytes n, exec i { s with obuf := bytes, olen := n } = .next { t with obuf := bytes, olen := n })

/-- 10_state.md section 5, 60_exceptions.md section 1: STAT is not sticky, and no command reads it. -/
def Obligations.StatusNotSticky : Prop :=
  ∀ i s code, exec i { s with stat := code } = exec i s

/-- 70_reset_and_hazards.md R203: after any REORDER, successful or not, the next command works on the original bytes. -/
def Obligations.SecondCommandSeesOriginalInput : Prop :=
  ∀ i j s t u, i.convention?.isSome = true → exec i s = .next t → exec j t = .next u →
    SameInput s t ∧
    ∃ v, exec j s = .next v ∧ u.stat = v.stat ∧
      (j.convention?.isSome = true → u.stat = 0#1 → SameOutput v u) ∧
      (j.convention? = none → SameResultBytes v u)

/-- 10_state.md R31: every element after reset, for each value of the parameter. ACC, CRCLO and CRCHI are unspecified there
and nothing is said of them. -/
def Obligations.ResetValues : Prop :=
  (∀ hostLE maxLen n,
    (State.afterReset hostLE maxLen n).hle = hostLE ∧ (State.afterReset hostLE maxLen n).ilen = 0 ∧
    (State.afterReset hostLE maxLen n).ibuf = [] ∧ (State.afterReset hostLE maxLen n).olen = 0 ∧
    (State.afterReset hostLE maxLen n).obuf = [] ∧ (State.afterReset hostLE maxLen n).stat = 0#1) ∧
  State.reset.hle = Config.hostLE ∧ State.reset.ilen = 0 ∧ State.reset.ibuf = [] ∧
  State.reset.olen = 0 ∧ State.reset.obuf = [] ∧ State.reset.stat = 0#1

/-- 70_reset_and_hazards.md section 1, the reset event: the values of 10_state.md section 7, with HOST_LE constant. That the
model has this event, and that the host's own fields stay, is the model's choice, log entry 13. -/
def Obligations.ResetEventRestoresResetValues : Prop :=
  ∀ s rest, s.pending = .reset :: rest →
    ∃ t, step s = .next t ∧ SameConfig s t ∧ t.ilen = 0 ∧ t.ibuf = [] ∧ t.olen = 0 ∧ t.obuf = [] ∧ t.stat = 0#1 ∧
      t.pending = rest ∧ t.view = s.view

/-- 10_state.md section 2 (the host byte order flag), 00_scope.md section 3 (MAXLEN): no step of any kind changes either. -/
def Obligations.ParametersNeverChange : Prop :=
  ∀ n s t, Host.Core.run core n s = .next t → SameConfig s t

/-- 10_state.md section 3, 20_memory.md sections 1 and 3: the buffers are canonical and bounded after reset. The lengths and
their bounds are the spec's; the canonical form (rising addresses, no entry of 00) is the model's DESIGN CHOICE, log entry 7. -/
def Obligations.InvariantHoldsAtReset : Prop := State.reset.Inv

/-- 10_state.md section 3, 20_memory.md sections 1 and 3: every step keeps the buffers canonical, below their lengths and
within MAXLEN, from any state in which they are. The lengths and their bounds are the spec's; the canonical form (rising
addresses, no entry of 00) is the model's DESIGN CHOICE, log entry 7. -/
def Obligations.InvariantKeptByStep : Prop :=
  ∀ s t : State, s.Inv → step s = .next t → t.Inv
end

