-- ==== Sys2Proof/Laws/Loops.lean ====
section
/-! SUPPORT. Loops that may fault: one that never does is the plain loop. -/

namespace Sys2Proof.Machine

theorem foldlM_ok {α β ε : Type} {f : β → α → Except ε β} {g : β → α → β} (l : List α)
    (h : ∀ x ∈ l, ∀ b, f b x = .ok (g b x)) (b : β) : l.foldlM f b = .ok (l.foldl g b) := by
  induction l generalizing b with
  | nil => rfl
  | cons x xs ih =>
    rw [List.foldlM_cons, h x (by simp)]
    exact ih (fun y hy => h y (by simp [hy])) (g b x)

/-- Inside IBUF, BufRead gives the byte there. -/
theorem bufRead_inside {s : State} {i : Nat} (h : i < s.ilen) : bufRead s i = .ok (s.ibuf.read i) := by
  simp [bufRead, h]

end Sys2Proof.Machine
end

