-- ==== Sys2Proof/Laws/State.lean ====
section
/-! SUPPORT. One lemma per state field per update, so that no proof unfolds a record update. -/

namespace Sys2Proof.Machine

@[simp] theorem State.setInput_hle (s : State) (bytes : List Byte) : (s.setInput bytes).hle = s.hle := rfl
@[simp] theorem State.setInput_ibuf (s : State) (bytes : List Byte) : (s.setInput bytes).ibuf = Memory.ofBytes bytes := rfl
@[simp] theorem State.setInput_ilen (s : State) (bytes : List Byte) : (s.setInput bytes).ilen = bytes.length := rfl
@[simp] theorem State.setInput_obuf (s : State) (bytes : List Byte) : (s.setInput bytes).obuf = s.obuf := rfl
@[simp] theorem State.setInput_olen (s : State) (bytes : List Byte) : (s.setInput bytes).olen = s.olen := rfl
@[simp] theorem State.setInput_acc (s : State) (bytes : List Byte) : (s.setInput bytes).acc = s.acc := rfl
@[simp] theorem State.setInput_crcLo (s : State) (bytes : List Byte) : (s.setInput bytes).crcLo = s.crcLo := rfl
@[simp] theorem State.setInput_crcHi (s : State) (bytes : List Byte) : (s.setInput bytes).crcHi = s.crcHi := rfl
@[simp] theorem State.setInput_stat (s : State) (bytes : List Byte) : (s.setInput bytes).stat = s.stat := rfl
@[simp] theorem State.setInput_maxLen (s : State) (bytes : List Byte) : (s.setInput bytes).maxLen = s.maxLen := rfl
@[simp] theorem State.setInput_pending (s : State) (bytes : List Byte) : (s.setInput bytes).pending = s.pending := rfl
@[simp] theorem State.setInput_view (s : State) (bytes : List Byte) : (s.setInput bytes).view = s.view := rfl
@[simp] theorem State.setInput_resets (s : State) (bytes : List Byte) : (s.setInput bytes).resets = s.resets := rfl

@[simp] theorem State.setOutput_hle (s : State) (out : Memory) (len : Nat) : (s.setOutput out len).hle = s.hle := rfl
@[simp] theorem State.setOutput_ibuf (s : State) (out : Memory) (len : Nat) : (s.setOutput out len).ibuf = s.ibuf := rfl
@[simp] theorem State.setOutput_ilen (s : State) (out : Memory) (len : Nat) : (s.setOutput out len).ilen = s.ilen := rfl
@[simp] theorem State.setOutput_obuf (s : State) (out : Memory) (len : Nat) : (s.setOutput out len).obuf = out := rfl
@[simp] theorem State.setOutput_olen (s : State) (out : Memory) (len : Nat) : (s.setOutput out len).olen = len := rfl
@[simp] theorem State.setOutput_acc (s : State) (out : Memory) (len : Nat) : (s.setOutput out len).acc = s.acc := rfl
@[simp] theorem State.setOutput_crcLo (s : State) (out : Memory) (len : Nat) : (s.setOutput out len).crcLo = s.crcLo := rfl
@[simp] theorem State.setOutput_crcHi (s : State) (out : Memory) (len : Nat) : (s.setOutput out len).crcHi = s.crcHi := rfl
@[simp] theorem State.setOutput_stat (s : State) (out : Memory) (len : Nat) : (s.setOutput out len).stat = s.stat := rfl
@[simp] theorem State.setOutput_maxLen (s : State) (out : Memory) (len : Nat) : (s.setOutput out len).maxLen = s.maxLen := rfl
@[simp] theorem State.setOutput_pending (s : State) (out : Memory) (len : Nat) : (s.setOutput out len).pending = s.pending := rfl
@[simp] theorem State.setOutput_view (s : State) (out : Memory) (len : Nat) : (s.setOutput out len).view = s.view := rfl
@[simp] theorem State.setOutput_resets (s : State) (out : Memory) (len : Nat) : (s.setOutput out len).resets = s.resets := rfl

@[simp] theorem State.setChecksum_hle (s : State) (a : Half) : (s.setChecksum a).hle = s.hle := rfl
@[simp] theorem State.setChecksum_ibuf (s : State) (a : Half) : (s.setChecksum a).ibuf = s.ibuf := rfl
@[simp] theorem State.setChecksum_ilen (s : State) (a : Half) : (s.setChecksum a).ilen = s.ilen := rfl
@[simp] theorem State.setChecksum_obuf (s : State) (a : Half) : (s.setChecksum a).obuf = s.obuf := rfl
@[simp] theorem State.setChecksum_olen (s : State) (a : Half) : (s.setChecksum a).olen = s.olen := rfl
@[simp] theorem State.setChecksum_acc (s : State) (a : Half) : (s.setChecksum a).acc = a := rfl
@[simp] theorem State.setChecksum_crcLo (s : State) (a : Half) : (s.setChecksum a).crcLo = lowByte a := rfl
@[simp] theorem State.setChecksum_crcHi (s : State) (a : Half) : (s.setChecksum a).crcHi = highByte a := rfl
@[simp] theorem State.setChecksum_stat (s : State) (a : Half) : (s.setChecksum a).stat = s.stat := rfl
@[simp] theorem State.setChecksum_maxLen (s : State) (a : Half) : (s.setChecksum a).maxLen = s.maxLen := rfl
@[simp] theorem State.setChecksum_pending (s : State) (a : Half) : (s.setChecksum a).pending = s.pending := rfl
@[simp] theorem State.setChecksum_view (s : State) (a : Half) : (s.setChecksum a).view = s.view := rfl
@[simp] theorem State.setChecksum_resets (s : State) (a : Half) : (s.setChecksum a).resets = s.resets := rfl

@[simp] theorem State.setStat_hle (s : State) (code : BitVec 1) : (s.setStat code).hle = s.hle := rfl
@[simp] theorem State.setStat_ibuf (s : State) (code : BitVec 1) : (s.setStat code).ibuf = s.ibuf := rfl
@[simp] theorem State.setStat_ilen (s : State) (code : BitVec 1) : (s.setStat code).ilen = s.ilen := rfl
@[simp] theorem State.setStat_obuf (s : State) (code : BitVec 1) : (s.setStat code).obuf = s.obuf := rfl
@[simp] theorem State.setStat_olen (s : State) (code : BitVec 1) : (s.setStat code).olen = s.olen := rfl
@[simp] theorem State.setStat_acc (s : State) (code : BitVec 1) : (s.setStat code).acc = s.acc := rfl
@[simp] theorem State.setStat_crcLo (s : State) (code : BitVec 1) : (s.setStat code).crcLo = s.crcLo := rfl
@[simp] theorem State.setStat_crcHi (s : State) (code : BitVec 1) : (s.setStat code).crcHi = s.crcHi := rfl
@[simp] theorem State.setStat_stat (s : State) (code : BitVec 1) : (s.setStat code).stat = code := rfl
@[simp] theorem State.setStat_maxLen (s : State) (code : BitVec 1) : (s.setStat code).maxLen = s.maxLen := rfl
@[simp] theorem State.setStat_pending (s : State) (code : BitVec 1) : (s.setStat code).pending = s.pending := rfl
@[simp] theorem State.setStat_view (s : State) (code : BitVec 1) : (s.setStat code).view = s.view := rfl
@[simp] theorem State.setStat_resets (s : State) (code : BitVec 1) : (s.setStat code).resets = s.resets := rfl

@[simp] theorem State.setPending_hle (s : State) (events : List HostEvent) : (s.setPending events).hle = s.hle := rfl
@[simp] theorem State.setPending_ibuf (s : State) (events : List HostEvent) : (s.setPending events).ibuf = s.ibuf := rfl
@[simp] theorem State.setPending_ilen (s : State) (events : List HostEvent) : (s.setPending events).ilen = s.ilen := rfl
@[simp] theorem State.setPending_obuf (s : State) (events : List HostEvent) : (s.setPending events).obuf = s.obuf := rfl
@[simp] theorem State.setPending_olen (s : State) (events : List HostEvent) : (s.setPending events).olen = s.olen := rfl
@[simp] theorem State.setPending_acc (s : State) (events : List HostEvent) : (s.setPending events).acc = s.acc := rfl
@[simp] theorem State.setPending_crcLo (s : State) (events : List HostEvent) : (s.setPending events).crcLo = s.crcLo := rfl
@[simp] theorem State.setPending_crcHi (s : State) (events : List HostEvent) : (s.setPending events).crcHi = s.crcHi := rfl
@[simp] theorem State.setPending_stat (s : State) (events : List HostEvent) : (s.setPending events).stat = s.stat := rfl
@[simp] theorem State.setPending_maxLen (s : State) (events : List HostEvent) : (s.setPending events).maxLen = s.maxLen := rfl
@[simp] theorem State.setPending_pending (s : State) (events : List HostEvent) : (s.setPending events).pending = events := rfl
@[simp] theorem State.setPending_view (s : State) (events : List HostEvent) : (s.setPending events).view = s.view := rfl
@[simp] theorem State.setPending_resets (s : State) (events : List HostEvent) : (s.setPending events).resets = s.resets := rfl

@[simp] theorem State.setView_hle (s : State) (v : HostView) : (s.setView v).hle = s.hle := rfl
@[simp] theorem State.setView_ibuf (s : State) (v : HostView) : (s.setView v).ibuf = s.ibuf := rfl
@[simp] theorem State.setView_ilen (s : State) (v : HostView) : (s.setView v).ilen = s.ilen := rfl
@[simp] theorem State.setView_obuf (s : State) (v : HostView) : (s.setView v).obuf = s.obuf := rfl
@[simp] theorem State.setView_olen (s : State) (v : HostView) : (s.setView v).olen = s.olen := rfl
@[simp] theorem State.setView_acc (s : State) (v : HostView) : (s.setView v).acc = s.acc := rfl
@[simp] theorem State.setView_crcLo (s : State) (v : HostView) : (s.setView v).crcLo = s.crcLo := rfl
@[simp] theorem State.setView_crcHi (s : State) (v : HostView) : (s.setView v).crcHi = s.crcHi := rfl
@[simp] theorem State.setView_stat (s : State) (v : HostView) : (s.setView v).stat = s.stat := rfl
@[simp] theorem State.setView_maxLen (s : State) (v : HostView) : (s.setView v).maxLen = s.maxLen := rfl
@[simp] theorem State.setView_pending (s : State) (v : HostView) : (s.setView v).pending = s.pending := rfl
@[simp] theorem State.setView_view (s : State) (v : HostView) : (s.setView v).view = some v := rfl
@[simp] theorem State.setView_resets (s : State) (v : HostView) : (s.setView v).resets = s.resets := rfl

end Sys2Proof.Machine
end

