-- ==== Sys2Proof/Laws/Checksum.lean ====
section
/-! SUPPORT. What a checksum command does: everything `checksum` can answer, said once. -/

namespace Sys2Proof.Machine

/-- Inside the buffer the loop is the plain fold over the bytes of the range. -/
theorem crcLoop_inside {s : State} {r : ByteRange} (h : r.start + r.len ≤ s.ilen) :
    crcLoop s r = .ok (crcOf (s.ibuf.bytes r.start r.len)) := by
  have hloop : crcLoop s r =
      .ok ((List.range' r.start r.len).foldl (fun a k => byteStep a (s.ibuf.read k)) crcInit) := by
    refine foldlM_ok _ (fun k hk a => ?_) crcInit
    have hk := List.mem_range'_1.mp hk
    simp [bufRead_inside (show k < s.ilen by omega), Except.map]
  rw [hloop, crcOf, crcFrom, Memory.bytes, List.foldl_map]

/-- A checksum over a range inside the buffer completes with the checksum of its bytes. -/
theorem checksum_inside {s : State} {r : ByteRange} (h : r.start + r.len ≤ s.ilen) :
    checksum r s = complete (s.setChecksum (crcOf (s.ibuf.bytes r.start r.len))) := by
  simp [checksum, rangeInside, h, crcLoop_inside h]

/-- A checksum over a range not inside the buffer is refused. -/
theorem checksum_outside {s : State} {r : ByteRange} (h : ¬ r.start + r.len ≤ s.ilen) :
    checksum r s = .refused (.rangeOutsideBuffer r.start r.len) := by
  simp [checksum, rangeInside, h]

theorem crcFrom_append (a : Half) (m n : List Byte) : crcFrom a (m ++ n) = crcFrom (crcFrom a m) n := by
  simp [crcFrom]

end Sys2Proof.Machine
end

