-- ==== Sys2Proof/Laws/Memory.lean ====
section
/-! SUPPORT. What the memory operations do, and that each keeps the canonical form. -/

namespace Sys2Proof.Machine

theorem Memory.wfFrom_mono {m : Memory} {a b : Nat} (h : Memory.wfFrom a m = true) (hba : b ≤ a) :
    Memory.wfFrom b m = true := by
  cases m with
  | nil => rfl
  | cons c rest =>
    simp only [Memory.wfFrom, Bool.and_eq_true, decide_eq_true_eq] at h ⊢
    exact ⟨⟨by omega, h.1.2⟩, h.2⟩

/-- Below its first possible cell a canonical buffer lists nothing. -/
theorem Memory.read_of_lt {m : Memory} {a x : Nat} (h : Memory.wfFrom a m = true) (hx : x < a) :
    m.read x = Memory.unlisted := by
  induction m generalizing a with
  | nil => rfl
  | cons c rest ih =>
    simp only [Memory.wfFrom, Bool.and_eq_true, decide_eq_true_eq] at h
    have hne : x ≠ c.1 := by omega
    simp only [Memory.read, hne, if_false]
    exact ih h.2 (by omega)

theorem Memory.read_cons {rest : Memory} {a : Nat} (h : Memory.wfFrom (a + 1) rest = true) (b : Byte) (x : Nat) :
    (Memory.cons a b rest).read x = if x = a then b else rest.read x := by
  unfold Memory.cons
  by_cases hb : b = Memory.unlisted
  · by_cases hx : x = a
    · subst hx
      simp [hb, Memory.read_of_lt h]
    · simp [hb, hx]
  · simp [hb, Memory.read]

theorem Memory.wfFrom_cons {rest : Memory} {a : Nat} (h : Memory.wfFrom (a + 1) rest = true) (b : Byte) :
    Memory.wfFrom a (Memory.cons a b rest) = true := by
  unfold Memory.cons
  by_cases hb : b = Memory.unlisted
  · simpa [hb] using Memory.wfFrom_mono h (Nat.le_succ a)
  · simp [hb, Memory.wfFrom, h]

theorem Memory.wfFrom_write {m : Memory} {k a : Nat} (h : Memory.wfFrom k m = true) (ha : k ≤ a) (b : Byte) :
    Memory.wfFrom k (m.write a b) = true := by
  induction m generalizing k with
  | nil => exact Memory.wfFrom_mono (Memory.wfFrom_cons (rest := []) rfl b) ha
  | cons c rest ih =>
    have hc := h
    simp only [Memory.wfFrom, Bool.and_eq_true, decide_eq_true_eq] at hc
    simp only [Memory.write]
    split
    · refine Memory.wfFrom_mono (Memory.wfFrom_cons ?_ b) ha
      simp only [Memory.wfFrom, Bool.and_eq_true, decide_eq_true_eq]
      exact ⟨⟨by omega, hc.1.2⟩, hc.2⟩
    · split
      · rename_i heq
        refine Memory.wfFrom_mono (Memory.wfFrom_cons ?_ b) ha
        simpa [heq] using hc.2
      · simp only [Memory.wfFrom, Bool.and_eq_true, decide_eq_true_eq]
        exact ⟨hc.1, ih hc.2 (by omega)⟩

/-- A store keeps the canonical form. -/
theorem Memory.wf_write {m : Memory} (h : m.wf = true) (a : Nat) (b : Byte) : (m.write a b).wf = true :=
  Memory.wfFrom_write h (Nat.zero_le a) b

theorem Memory.read_write_from {m : Memory} {k : Nat} (h : Memory.wfFrom k m = true) (a : Nat) (b : Byte) (x : Nat) :
    (m.write a b).read x = if x = a then b else m.read x := by
  induction m generalizing k with
  | nil => exact Memory.read_cons rfl b x
  | cons c rest ih =>
    have hc := h
    simp only [Memory.wfFrom, Bool.and_eq_true, decide_eq_true_eq] at hc
    simp only [Memory.write]
    split
    · refine Memory.read_cons ?_ b x
      simp only [Memory.wfFrom, Bool.and_eq_true, decide_eq_true_eq]
      exact ⟨⟨by omega, hc.1.2⟩, hc.2⟩
    · split
      · rename_i heq
        rw [Memory.read_cons (by simpa [heq] using hc.2)]
        by_cases hx : x = a <;> simp [hx, Memory.read, ← heq]
      · rename_i hlt hne
        by_cases hcx : x = c.1
        · have hca : c.1 ≠ a := Ne.symm hne
          simp [Memory.read, hcx, hca]
        · simp only [Memory.read, hcx, if_false]
          exact ih hc.2

/-- Reading after a store: the byte stored at its position, every other byte as before. -/
theorem Memory.read_write {m : Memory} (h : m.wf = true) (a : Nat) (b : Byte) (x : Nat) :
    (m.write a b).read x = if x = a then b else m.read x :=
  Memory.read_write_from h a b x

theorem Memory.wfFrom_ofBytesAt (a : Nat) (bs : List Byte) : Memory.wfFrom a (Memory.ofBytesAt a bs) = true := by
  induction bs generalizing a with
  | nil => rfl
  | cons b bs ih => exact Memory.wfFrom_cons (ih (a + 1)) b

/-- A loaded buffer is canonical. -/
theorem Memory.wf_ofBytes (bs : List Byte) : (Memory.ofBytes bs).wf = true := Memory.wfFrom_ofBytesAt 0 bs

theorem Memory.read_ofBytesAt (a : Nat) (bs : List Byte) (x : Nat) :
    (Memory.ofBytesAt a bs).read (a + x) = bs.getD x Memory.unlisted := by
  induction bs generalizing a x with
  | nil => simp [Memory.ofBytesAt, Memory.read]
  | cons b bs ih =>
    rw [Memory.ofBytesAt, Memory.read_cons (Memory.wfFrom_ofBytesAt (a + 1) bs)]
    cases x with
    | zero => simp
    | succ n =>
      have hne : a + (n + 1) ≠ a := by omega
      rw [if_neg hne, show a + (n + 1) = a + 1 + n by omega, ih]
      simp

/-- A loaded buffer reads back the bytes it was loaded with. -/
theorem Memory.read_ofBytes (bs : List Byte) (x : Nat) : (Memory.ofBytes bs).read x = bs.getD x Memory.unlisted := by
  simpa [Memory.ofBytes] using Memory.read_ofBytesAt 0 bs x

theorem Memory.below_cons {rest : Memory} {n a : Nat} (h : rest.below n = true) (ha : a < n) (b : Byte) :
    (Memory.cons a b rest).below n = true := by
  unfold Memory.cons
  split
  · exact h
  · simpa [Memory.below, ha] using h

/-- A store below the length stays below the length. -/
theorem Memory.below_write {m : Memory} {n a : Nat} (h : m.below n = true) (ha : a < n) (b : Byte) :
    (m.write a b).below n = true := by
  induction m with
  | nil => exact Memory.below_cons rfl ha b
  | cons c rest ih =>
    have hc : c.1 < n ∧ Memory.below rest n = true := by simpa [Memory.below] using h
    simp only [Memory.write]
    split
    · exact Memory.below_cons h ha b
    · split
      · exact Memory.below_cons hc.2 ha b
      · have := ih hc.2
        simp only [Memory.below] at this ⊢
        simp [hc.1, this]

theorem Memory.below_ofBytesAt (a n : Nat) (bs : List Byte) (h : a + bs.length ≤ n) :
    (Memory.ofBytesAt a bs).below n = true := by
  induction bs generalizing a with
  | nil => rfl
  | cons b bs ih =>
    simp only [List.length_cons] at h
    exact Memory.below_cons (ih (a + 1) (by omega)) (by omega) b

/-- A loaded buffer holds positions below its length only. -/
theorem Memory.below_ofBytes (bs : List Byte) : (Memory.ofBytes bs).below bs.length = true :=
  Memory.below_ofBytesAt 0 bs.length bs (by omega)

/-- At or above its length a buffer lists nothing. -/
theorem Memory.read_of_below {m : Memory} {n x : Nat} (h : m.below n = true) (hx : n ≤ x) : m.read x = Memory.unlisted := by
  induction m with
  | nil => rfl
  | cons c rest ih =>
    have hc : c.1 < n ∧ Memory.below rest n = true := by simpa [Memory.below] using h
    have hne : x ≠ c.1 := by omega
    simp only [Memory.read, hne, if_false]
    exact ih hc.2

theorem Memory.eq_of_read_from {m m' : Memory} {a : Nat} (h : Memory.wfFrom a m = true) (h' : Memory.wfFrom a m' = true)
    (heq : ∀ x, m.read x = m'.read x) : m = m' := by
  induction m generalizing m' a with
  | nil =>
    cases m' with
    | nil => rfl
    | cons c rest =>
      simp only [Memory.wfFrom, Bool.and_eq_true, decide_eq_true_eq] at h'
      have := heq c.1
      simp [Memory.read] at this
      exact absurd this.symm h'.1.2
  | cons c rest ih =>
    simp only [Memory.wfFrom, Bool.and_eq_true, decide_eq_true_eq] at h
    cases m' with
    | nil =>
      have := heq c.1
      simp [Memory.read] at this
      exact absurd this h.1.2
    | cons c' rest' =>
      simp only [Memory.wfFrom, Bool.and_eq_true, decide_eq_true_eq] at h'
      have hkey : c.1 = c'.1 := by
        rcases Nat.lt_trichotomy c.1 c'.1 with hlt | he | hgt
        · have hr := heq c.1
          have hne : c.1 ≠ c'.1 := by omega
          simp only [Memory.read, if_true, hne, if_false] at hr
          rw [Memory.read_of_lt h'.2 (by omega)] at hr
          exact absurd hr h.1.2
        · exact he
        · have hr := heq c'.1
          have hne : c'.1 ≠ c.1 := by omega
          simp only [Memory.read, if_true, hne, if_false] at hr
          rw [Memory.read_of_lt h.2 (by omega)] at hr
          exact absurd hr.symm h'.1.2
      have hval : c.2 = c'.2 := by
        have hr := heq c.1
        simpa [Memory.read, hkey] using hr
      have hrest : rest = rest' := by
        refine ih h.2 (by simpa [hkey] using h'.2) fun x => ?_
        by_cases hx : x = c.1
        · rw [Memory.read_of_lt h.2 (by omega), Memory.read_of_lt h'.2 (by omega)]
        · have hr := heq x
          have hx' : x ≠ c'.1 := by omega
          simpa [Memory.read, hx, hx'] using hr
      rw [Prod.ext hkey hval, hrest]

/-- Canonical buffers that read alike are equal data. -/
theorem Memory.eq_of_read {m m' : Memory} (h : m.wf = true) (h' : m'.wf = true) (heq : ∀ x, m.read x = m'.read x) :
    m = m' :=
  Memory.eq_of_read_from h h' heq

/-- The buffers after reset are canonical. -/
theorem reset_buffers_wf : State.reset.ibuf.wf = true ∧ State.reset.obuf.wf = true := ⟨rfl, rfl⟩

/-- The bytes of a whole loaded buffer are the bytes it was loaded with. -/
theorem Memory.bytes_ofBytes (bs : List Byte) : (Memory.ofBytes bs).bytes 0 bs.length = bs := by
  refine List.ext_getElem (by simp [Memory.bytes]) fun i h₁ h₂ => ?_
  simp [Memory.bytes, Memory.read_ofBytes, h₂]

end Sys2Proof.Machine
end

