-- ==== Sys2Proof/Laws/Permute.lean ====
section
/-! SUPPORT. What a REORDER command does: everything `reorder` can answer, said once. -/

namespace Sys2Proof.Machine

theorem groupSize_pos (c : Convention) : 0 < groupSize c := by cases c <;> decide

/-- Every entry of a permutation is a position of the group. -/
theorem perm_lt (c : Convention) (hle : Bool) (i : Nat) (hi : i < groupSize c) :
    (perm c hle).getD i 0 < groupSize c := by
  revert i
  cases c <;> cases hle <;> decide

/-- The bytes one group receives, stored in a row. -/
def storeRow (base n : Nat) (f : Nat → Byte) (out : Memory) : Memory :=
  (List.range n).foldl (fun m i => obufWrite m (base + i) (f i)) out

theorem storeRow_succ (base n : Nat) (f : Nat → Byte) (out : Memory) :
    storeRow base (n + 1) f out = (storeRow base n f out).write (base + n) (f n) := by
  simp [storeRow, List.range_succ, obufWrite]

theorem storeRow_wf (base n : Nat) (f : Nat → Byte) {out : Memory} (h : out.wf = true) :
    (storeRow base n f out).wf = true := by
  induction n with
  | zero => exact h
  | succ n ih =>
    rw [storeRow_succ]
    exact Memory.wf_write ih _ _

theorem storeRow_below (base n len : Nat) (f : Nat → Byte) {out : Memory} (h : out.below len = true)
    (hlen : base + n ≤ len) : (storeRow base n f out).below len = true := by
  induction n with
  | zero => exact h
  | succ n ih =>
    rw [storeRow_succ]
    exact Memory.below_write (ih (by omega)) (by omega) _

theorem storeRow_read (base n : Nat) (f : Nat → Byte) {out : Memory} (h : out.wf = true) (x : Nat) :
    (storeRow base n f out).read x = if base ≤ x ∧ x < base + n then f (x - base) else out.read x := by
  induction n with
  | zero =>
    have hx : ¬ (base ≤ x ∧ x < base + 0) := by omega
    rw [if_neg hx]
    rfl
  | succ n ih =>
    rw [storeRow_succ, Memory.read_write (storeRow_wf base n f h), ih]
    by_cases hx : x = base + n
    · subst hx
      simp
    · have hiff : (base ≤ x ∧ x < base + (n + 1)) ↔ (base ≤ x ∧ x < base + n) := by omega
      simp [hx, hiff]

/-- The byte a position of the output receives (R100). -/
def gathered (s : State) (size : Nat) (p : List Nat) (x : Nat) : Byte :=
  s.ibuf.read (x / size * size + p.getD (x % size) 0)

theorem moveGroup_ok {s : State} {size g : Nat} {p : List Nat} (hg : g < s.ilen / size)
    (hp : ∀ i, i < size → p.getD i 0 < size) (out : Memory) :
    moveGroup s size p out g =
      .ok (storeRow (g * size) size (fun i => s.ibuf.read (g * size + p.getD i 0)) out) := by
  have hend : (g + 1) * size ≤ s.ilen :=
    Nat.le_trans (Nat.mul_le_mul_right size hg) (Nat.div_mul_le_self s.ilen size)
  refine foldlM_ok (g := fun m i => obufWrite m (g * size + i) (s.ibuf.read (g * size + p.getD i 0)))
    _ (fun i hi m => ?_) out
  have hlt := hp i (List.mem_range.mp hi)
  have hin : g * size + p.getD i 0 < s.ilen := by
    rw [Nat.add_mul] at hend
    omega
  rw [moveByte, bufRead_inside hin]
  rfl

/-- The output buffer after the first `n` groups. -/
def gatherRows (s : State) (size : Nat) (p : List Nat) (n : Nat) : Memory :=
  (List.range n).foldl
    (fun m g => storeRow (g * size) size (fun i => s.ibuf.read (g * size + p.getD i 0)) m) []

theorem gatherRows_succ (s : State) (size : Nat) (p : List Nat) (n : Nat) :
    gatherRows s size p (n + 1) =
      storeRow (n * size) size (fun i => s.ibuf.read (n * size + p.getD i 0)) (gatherRows s size p n) := by
  simp [gatherRows, List.range_succ]

theorem gatherRows_wf (s : State) (size : Nat) (p : List Nat) (n : Nat) : (gatherRows s size p n).wf = true := by
  induction n with
  | zero => rfl
  | succ n ih =>
    rw [gatherRows_succ]
    exact storeRow_wf _ _ _ ih

theorem gatherRows_below (s : State) (size : Nat) (p : List Nat) (n len : Nat) (h : n * size ≤ len) :
    (gatherRows s size p n).below len = true := by
  induction n with
  | zero => rfl
  | succ n ih =>
    rw [Nat.add_mul, Nat.one_mul] at h
    rw [gatherRows_succ]
    exact storeRow_below _ _ _ _ (ih (by omega)) h

theorem gatherRows_read (s : State) {size : Nat} (hsize : 0 < size) (p : List Nat) (n x : Nat) :
    (gatherRows s size p n).read x = if x < n * size then gathered s size p x else Memory.unlisted := by
  induction n with
  | zero => simp [gatherRows, Memory.read]
  | succ n ih =>
    rw [gatherRows_succ, storeRow_read _ _ _ (gatherRows_wf s size p n), ih, Nat.add_mul, Nat.one_mul]
    by_cases hlow : n * size ≤ x
    · by_cases hhigh : x < n * size + size
      · have hdiv : x / size = n :=
          Nat.div_eq_of_lt_le hlow (by rw [Nat.add_mul, Nat.one_mul]; exact hhigh)
        have hmod : x % size = x - n * size := by
          have := Nat.div_add_mod x size
          rw [hdiv, Nat.mul_comm] at this
          omega
        rw [if_pos ⟨hlow, hhigh⟩, if_pos hhigh, gathered, hdiv, hmod]
      · have h1 : ¬ (n * size ≤ x ∧ x < n * size + size) := fun h => hhigh h.2
        have h2 : ¬ x < n * size := by omega
        rw [if_neg h1, if_neg h2, if_neg hhigh]
    · have h1 : ¬ (n * size ≤ x ∧ x < n * size + size) := fun h => hlow h.1
      have h2 : x < n * size := by omega
      have h3 : x < n * size + size := by omega
      rw [if_neg h1, if_pos h2, if_pos h3]

theorem gather_ok {s : State} {size : Nat} {p : List Nat} (hp : ∀ i, i < size → p.getD i 0 < size) :
    gather s size p = .ok (gatherRows s size p (s.ilen / size)) :=
  foldlM_ok _ (fun _ hg out => moveGroup_ok (List.mem_range.mp hg) hp out) []

/-- A REORDER on a bad length raises InvalidArgument. -/
theorem reorder_rejected {c : Convention} {s : State} (h : ¬ (s.ilen ≠ 0 ∧ s.ilen % groupSize c = 0)) :
    reorder c s = raiseInvalidArgument s := by
  unfold reorder
  by_cases h0 : s.ilen = 0
  · simp [h0]
  · have hm : s.ilen % groupSize c ≠ 0 := fun hm => h ⟨h0, hm⟩
    simp [h0, hm]

/-- A REORDER on an admitted length completes with the gathered rows as its output. -/
theorem reorder_admitted {c : Convention} {s : State} (h : s.ilen ≠ 0 ∧ s.ilen % groupSize c = 0) :
    reorder c s =
      complete (s.setOutput (gatherRows s (groupSize c) (perm c s.hle) (s.ilen / groupSize c)) s.ilen) := by
  unfold reorder
  simp [h.1, h.2, gather_ok (fun i hi => perm_lt c s.hle i hi)]

/-- The output of an admitted REORDER, byte by byte. -/
theorem gatherRows_read_admitted {c : Convention} {s : State} (h : s.ilen % groupSize c = 0) (p : List Nat) (x : Nat) :
    (gatherRows s (groupSize c) p (s.ilen / groupSize c)).read x =
      if x < s.ilen then gathered s (groupSize c) p x else Memory.unlisted := by
  rw [gatherRows_read s (groupSize_pos c), Nat.div_mul_cancel (Nat.dvd_of_mod_eq_zero h)]

end Sys2Proof.Machine
end

