-- ==== Sys2Proof/Laws/Exec.lean ====
section
/-! SUPPORT. Every command is a REORDER of its convention or a checksum of its range. -/

namespace Sys2Proof.Machine

/-- The range a checksum command works on; none for a REORDER. -/
def range? (s : State) : Instr → Option ByteRange
  | .crc16R start len => some (rangeExplicit start len)
  | .crc16P len => some (rangePrefix len)
  | .crc16F => some (rangeFull s)
  | .reorderAbcd => none
  | .reorderCdab => none
  | .reorderBadc => none
  | .reorderDcba => none
  | .reorderAbcdefgh => none
  | .reorderGhefcdab => none
  | .reorderBadcfehg => none
  | .reorderHgfedcba => none

theorem exec_reorder {i : Instr} {c : Convention} (h : i.convention? = some c) (s : State) : exec i s = reorder c s := by
  cases i <;> cases h <;> rfl

theorem exec_checksum {i : Instr} {s : State} {r : ByteRange} (h : range? s i = some r) : exec i s = checksum r s := by
  cases i <;> cases h <;> rfl

/-- The two kinds of command. -/
theorem exec_cases (i : Instr) (s : State) :
    (∃ c, i.convention? = some c ∧ exec i s = reorder c s) ∨
      (∃ r, i.convention? = none ∧ range? s i = some r ∧ exec i s = checksum r s) := by
  cases hc : i.convention? with
  | some c => exact .inl ⟨c, rfl, exec_reorder hc s⟩
  | none =>
    cases hr : range? s i with
    | some r => exact .inr ⟨r, rfl, rfl, exec_checksum hr⟩
    | none => cases i <;> simp_all [Instr.convention?, range?]

/-- The contract of a checksum command is that its range lies inside the buffer. -/
theorem inContract_iff {i : Instr} {s : State} {r : ByteRange} (h : range? s i = some r) :
    i.inContract s.ilen = true ↔ r.start + r.len ≤ s.ilen := by
  cases i <;> cases h <;> simp [Instr.inContract, rangeExplicit, rangePrefix, rangeFull]

/-- Everything a command can answer. -/
theorem exec_next_cases {i : Instr} {s t : State} (h : exec i s = .next t) :
    (∃ c, i.convention? = some c ∧ ¬ (s.ilen ≠ 0 ∧ s.ilen % groupSize c = 0) ∧ t = s.setStat statInvalidArgument) ∨
    (∃ c, i.convention? = some c ∧ (s.ilen ≠ 0 ∧ s.ilen % groupSize c = 0) ∧
      t = (s.setOutput (gatherRows s (groupSize c) (perm c s.hle) (s.ilen / groupSize c)) s.ilen).setStat statOk) ∨
    (∃ r, i.convention? = none ∧ range? s i = some r ∧ r.start + r.len ≤ s.ilen ∧
      t = (s.setChecksum (crcOf (s.ibuf.bytes r.start r.len))).setStat statOk) := by
  rcases exec_cases i s with ⟨c, hc, he⟩ | ⟨r, hn, hr, he⟩
  · by_cases ha : s.ilen ≠ 0 ∧ s.ilen % groupSize c = 0
    · rw [he, reorder_admitted ha] at h
      cases h
      exact .inr (.inl ⟨c, hc, ha, rfl⟩)
    · rw [he, reorder_rejected ha] at h
      cases h
      exact .inl ⟨c, hc, ha, rfl⟩
  · by_cases hin : r.start + r.len ≤ s.ilen
    · rw [he, checksum_inside hin] at h
      cases h
      exact .inr (.inr ⟨r, hn, hr, hin, rfl⟩)
    · rw [he, checksum_outside hin] at h
      cases h

end Sys2Proof.Machine
end

