-- ==== Sys2Proof/Laws/PerInstr.lean ====
section
/-! SUPPORT. What holds of every instruction as syntax, one lemma per constructor. -/

namespace Sys2Proof.Laws

/-- The word a command is issued with is assigned, and its format bit is 0 exactly for the REORDER commands (R80, R84). -/
def EncodedWord.Statement (i : Instr) : Prop :=
  (encode i).word.toNat < 0xB ∧ ((encode i).word.getLsbD 3 = false ↔ i.convention?.isSome = true)

theorem EncodedWord.reorderAbcd : EncodedWord.Statement .reorderAbcd := by unfold EncodedWord.Statement; decide
theorem EncodedWord.reorderCdab : EncodedWord.Statement .reorderCdab := by unfold EncodedWord.Statement; decide
theorem EncodedWord.reorderBadc : EncodedWord.Statement .reorderBadc := by unfold EncodedWord.Statement; decide
theorem EncodedWord.reorderDcba : EncodedWord.Statement .reorderDcba := by unfold EncodedWord.Statement; decide
theorem EncodedWord.reorderAbcdefgh : EncodedWord.Statement .reorderAbcdefgh := by unfold EncodedWord.Statement; decide
theorem EncodedWord.reorderGhefcdab : EncodedWord.Statement .reorderGhefcdab := by unfold EncodedWord.Statement; decide
theorem EncodedWord.reorderBadcfehg : EncodedWord.Statement .reorderBadcfehg := by unfold EncodedWord.Statement; decide
theorem EncodedWord.reorderHgfedcba : EncodedWord.Statement .reorderHgfedcba := by unfold EncodedWord.Statement; decide
theorem EncodedWord.crc16R (start len : Nat) : EncodedWord.Statement (.crc16R start len) := by
  unfold EncodedWord.Statement
  simp only [encode, formatC, Instr.convention?]
  decide
theorem EncodedWord.crc16P (len : Nat) : EncodedWord.Statement (.crc16P len) := by
  unfold EncodedWord.Statement
  simp only [encode, formatC, Instr.convention?]
  decide
theorem EncodedWord.crc16F : EncodedWord.Statement .crc16F := by unfold EncodedWord.Statement; decide

end Sys2Proof.Laws
end

