-- ==== Sys2Proof/Laws/Step.lean ====
section
/-! SUPPORT. Every shape a step that answers a next state can have. -/

namespace Sys2Proof.Machine

theorem nextEvent_cons {s : State} {e : HostEvent} {rest : List HostEvent} (h : s.pending = e :: rest) :
    nextEvent s = some (e, s.setPending rest) := by
  simp [nextEvent, h]

theorem nextEvent_nil {s : State} (h : s.pending = []) : nextEvent s = none := by
  simp [nextEvent, h]

theorem issue_ok {r : Request} {i : Instr} (h : decode r = .ok i) (s : State) : issue r s = exec i s := by
  simp [issue, h]

/-- What a step that answers a next state was: idle, a LOAD, a READ, a reset, or a command that completed. -/
theorem step_next_cases {s t : State} (h : step s = .next t) :
    (s.pending = [] ∧ t = s) ∨
    (∃ bytes rest, s.pending = .load bytes :: rest ∧ withinMaxLen s.maxLen bytes.length = true ∧
      t = (s.setPending rest).setInput bytes) ∨
    (∃ rest, s.pending = .read :: rest ∧ t = (s.setPending rest).setView (observe (s.setPending rest))) ∨
    (∃ r i rest, s.pending = .command r :: rest ∧ decode r = .ok i ∧ exec i (s.setPending rest) = .next t) ∨
    (∃ rest, s.pending = .reset :: rest ∧ execReset (s.setPending rest) = .next t) := by
  cases hp : s.pending with
  | nil =>
    simp only [step, nextEvent_nil hp, idle] at h
    cases h
    exact .inl ⟨rfl, rfl⟩
  | cons e rest =>
    simp only [step, nextEvent_cons hp] at h
    cases e with
    | load bytes =>
      simp only [act, execLoad] at h
      split at h
      · rename_i hin
        cases h
        exact .inr (.inl ⟨bytes, rest, rfl, hin, rfl⟩)
      · cases h
    | read =>
      simp only [act, execRead] at h
      cases h
      exact .inr (.inr (.inl ⟨rest, rfl, rfl⟩))
    | command r =>
      simp only [act, issue] at h
      split at h
      · rename_i i hd
        exact .inr (.inr (.inr (.inl ⟨r, i, rest, rfl, hd, h⟩)))
      · cases h
    | reset => exact .inr (.inr (.inr (.inr ⟨rest, rfl, h⟩)))

end Sys2Proof.Machine
end

