-- ==== Sys2Proof/Tests/Slice0.lean ====
section
/-! SUPPORT. Tests whose expected results come from spec/95_test_vectors.md and the worked examples of the command rules, the
smoke tests of the checks, and a witness for the hypotheses of each statement. -/

namespace Sys2Proof.Tests

open Sys2Proof.Machine

/-- A state right after reset, with the given host order and buffer. -/
def loaded (hle : Bool) (bytes : List Byte) : State := (State.afterReset hle none 0).setInput bytes

/-- The next state of a command, or the state itself where it gives none. -/
def after (i : Instr) (s : State) : State :=
  match exec i s with
  | .next t => t
  | .fault _ => s
  | .refused _ => s

/-- OBUF after a command. -/
def outputOf (i : Instr) (s : State) : List Byte := (observe (after i s)).obuf

/-- CRCLO and CRCHI after a command. -/
def pairOf (i : Instr) (s : State) : Byte × Byte := ((after i s).crcLo, (after i s).crcHi)

/-- The refusal a command ends in, if it ends in one. -/
def refusalOf (i : Instr) (s : State) : Option Refusal :=
  match exec i s with
  | .next _ => none
  | .fault _ => none
  | .refused why => some why

def group4 : List Byte := [0xA0, 0xA1, 0xA2, 0xA3]
def group8 : List Byte := [0xA0, 0xA1, 0xA2, 0xA3, 0xA4, 0xA5, 0xA6, 0xA7]
/-- 95 section 2.2. -/
def twoGroups4 : List Byte := [0x11, 0x22, 0x33, 0x44, 0x55, 0x66, 0x77, 0x88]
/-- 95 section 2.2, the case where stepping by 4 over 8-byte windows would differ. -/
def twoGroups8 : List Byte :=
  [0x00, 0x01, 0x02, 0x03, 0x04, 0x05, 0x06, 0x07, 0x10, 0x11, 0x12, 0x13, 0x14, 0x15, 0x16, 0x17]
/-- 95 section 2.6. -/
def rangeBuffer : List Byte := [0xAA, 0x01, 0x03, 0x00, 0x00, 0x00, 0x0A, 0xBB]

/-! ### Checks: an ill-formed term for each -/

theorem test_contract_refuses_long_range : Instr.inContract 8 (.crc16R 1 8) = false := by decide
theorem test_contract_refuses_start_beyond_end : Instr.inContract 8 (.crc16R 9 0) = false := by decide
theorem test_contract_refuses_long_prefix : Instr.inContract 8 (.crc16P 9) = false := by decide
theorem test_contract_accepts_nearest : Instr.inContract 8 (.crc16R 1 7) = true ∧ Instr.inContract 8 (.crc16R 8 0) = true ∧
    Instr.inContract 8 (.crc16P 8) = true := by decide
theorem test_maxLen_refuses_longer : withinMaxLen (some 4) 5 = false := by decide
theorem test_maxLen_accepts_equal_and_unbounded : withinMaxLen (some 4) 4 = true ∧ withinMaxLen none 1000 = true := by decide

/-! ### Decoding: words written out from R80 to R84 -/

theorem test_decode_abcd : decode { word := 0b0000#4 } = .ok .reorderAbcd := by decide
theorem test_decode_dcba : decode { word := 0b0011#4 } = .ok .reorderDcba := by decide
theorem test_decode_ghefcdab : decode { word := 0b0101#4 } = .ok .reorderGhefcdab := by decide
theorem test_decode_hgfedcba : decode { word := 0b0111#4 } = .ok .reorderHgfedcba := by decide
theorem test_decode_range : decode { word := 0b1000#4, start := 6, len := 2 } = .ok (.crc16R 6 2) := by decide
theorem test_decode_prefix : decode { word := 0b1001#4, len := 6 } = .ok (.crc16P 6) := by decide
theorem test_decode_full : decode { word := 0b1010#4 } = .ok .crc16F := by decide
theorem test_decode_first_reserved : decode { word := 0b1011#4 } = .error (.reservedWord 0b1011#4) := by decide
theorem test_decode_remaining_words : decode { word := 0b0001#4 } = .ok .reorderCdab ∧
    decode { word := 0b0010#4 } = .ok .reorderBadc ∧ decode { word := 0b0100#4 } = .ok .reorderAbcdefgh ∧
    decode { word := 0b0110#4 } = .ok .reorderBadcfehg := by decide
theorem test_table_word_range : decodeTableWord 8 0x8 = some (.crc16R 0 0) := by decide
theorem test_table_word_reserved : decodeTableWord 8 0xF = none := by decide

/-! ### REORDER: 95 sections 2.1 and 2.2, HOST_LE = 1 and HOST_LE = 0 -/

theorem test_abcd : outputOf .reorderAbcd (loaded true group4) = [0xA3, 0xA2, 0xA1, 0xA0] ∧
    outputOf .reorderAbcd (loaded false group4) = [0xA0, 0xA1, 0xA2, 0xA3] := by decide
theorem test_abcd_two_groups :
    outputOf .reorderAbcd (loaded true twoGroups4) = [0x44, 0x33, 0x22, 0x11, 0x88, 0x77, 0x66, 0x55] := by decide
theorem test_cdab : outputOf .reorderCdab (loaded true group4) = [0xA2, 0xA3, 0xA0, 0xA1] ∧
    outputOf .reorderCdab (loaded false group4) = [0xA1, 0xA0, 0xA3, 0xA2] := by decide
theorem test_cdab_three_groups :
    outputOf .reorderCdab
        (loaded false [0x00, 0x01, 0x02, 0x03, 0x10, 0x11, 0x12, 0x13, 0x20, 0x21, 0x22, 0x23]) =
      [0x01, 0x00, 0x03, 0x02, 0x11, 0x10, 0x13, 0x12, 0x21, 0x20, 0x23, 0x22] := by decide
theorem test_badc : outputOf .reorderBadc (loaded true group4) = [0xA1, 0xA0, 0xA3, 0xA2] ∧
    outputOf .reorderBadc (loaded false group4) = [0xA2, 0xA3, 0xA0, 0xA1] := by decide
theorem test_badc_two_groups :
    outputOf .reorderBadc (loaded false twoGroups4) = [0x33, 0x44, 0x11, 0x22, 0x77, 0x88, 0x55, 0x66] := by decide
theorem test_dcba : outputOf .reorderDcba (loaded true group4) = [0xA0, 0xA1, 0xA2, 0xA3] ∧
    outputOf .reorderDcba (loaded false group4) = [0xA3, 0xA2, 0xA1, 0xA0] := by decide
theorem test_dcba_empty_raises : (after .reorderDcba (loaded false [])).stat = 1#1 ∧
    (after .reorderDcba (loaded false [])).olen = 0 := by decide
theorem test_abcdefgh : outputOf .reorderAbcdefgh (loaded true group8) =
      [0xA7, 0xA6, 0xA5, 0xA4, 0xA3, 0xA2, 0xA1, 0xA0] ∧
    outputOf .reorderAbcdefgh (loaded false group8) = group8 := by decide
theorem test_abcdefgh_twelve_bytes_raises : (after .reorderAbcdefgh
    (loaded true [0x00, 0x01, 0x02, 0x03, 0x10, 0x11, 0x12, 0x13, 0x20, 0x21, 0x22, 0x23])).stat = 1#1 := by decide
theorem test_ghefcdab : outputOf .reorderGhefcdab (loaded true group8) =
      [0xA7, 0xA6, 0xA5, 0xA4, 0xA3, 0xA2, 0xA1, 0xA0] ∧
    outputOf .reorderGhefcdab (loaded false group8) = [0xA2, 0xA3, 0xA0, 0xA1, 0xA6, 0xA7, 0xA4, 0xA5] := by decide
theorem test_ghefcdab_two_groups : outputOf .reorderGhefcdab (loaded true twoGroups8) =
    [0x07, 0x06, 0x05, 0x04, 0x03, 0x02, 0x01, 0x00, 0x17, 0x16, 0x15, 0x14, 0x13, 0x12, 0x11, 0x10] := by decide
theorem test_badcfehg : outputOf .reorderBadcfehg (loaded true group8) =
      [0xA7, 0xA6, 0xA5, 0xA4, 0xA3, 0xA2, 0xA1, 0xA0] ∧
    outputOf .reorderBadcfehg (loaded false group8) = [0xA1, 0xA0, 0xA3, 0xA2, 0xA5, 0xA4, 0xA7, 0xA6] := by decide
theorem test_badcfehg_two_groups : outputOf .reorderBadcfehg (loaded false twoGroups8) =
    [0x01, 0x00, 0x03, 0x02, 0x05, 0x04, 0x07, 0x06, 0x11, 0x10, 0x13, 0x12, 0x15, 0x14, 0x17, 0x16] := by decide
theorem test_hgfedcba : outputOf .reorderHgfedcba (loaded true group8) = group8 ∧
    outputOf .reorderHgfedcba (loaded false group8) =
      [0xA7, 0xA6, 0xA5, 0xA4, 0xA3, 0xA2, 0xA1, 0xA0] := by decide
theorem test_hgfedcba_four_bytes_raises : (after .reorderHgfedcba (loaded true group4)).stat = 1#1 := by decide

/-! ### Checksum: 95 sections 2.4 to 2.6 -/

theorem test_bitStep : bitStep 0x0001#16 = 0xA001#16 ∧ bitStep 0x8000#16 = 0x4000#16 ∧ bitStep 0xA001#16 = 0xF001#16 := by
  decide
theorem test_byteStep : byteStep 0x1234#16 0x56#8 = 0xE993#16 ∧ byteStep 0xFFFF#16 0x00#8 = 0x40BF#16 := by decide
theorem test_range_empty_at_end : pairOf (.crc16R 8 0) (loaded true rangeBuffer) = (0xFF, 0xFF) := by decide
set_option maxRecDepth 100000 in
theorem test_range : pairOf (.crc16R 1 7) (loaded true rangeBuffer) = (0x4D, 0x20) := by decide
theorem test_prefix : pairOf (.crc16P 1) (loaded true rangeBuffer) = (0x3F, 0x3F) := by decide
set_option maxRecDepth 100000 in
theorem test_prefix_seven : pairOf (.crc16P 7) (loaded true rangeBuffer) = (0xD4, 0xDC) := by decide
set_option maxRecDepth 100000 in
theorem test_full_known_vector :
    pairOf .crc16F (loaded true [0x01, 0x03, 0x00, 0x00, 0x00, 0x0A]) = (0xC5, 0xCD) := by decide
set_option maxRecDepth 100000 in
theorem test_full_check_value :
    pairOf .crc16F (loaded false [0x31, 0x32, 0x33, 0x34, 0x35, 0x36, 0x37, 0x38, 0x39]) = (0x37, 0x4B) := by decide
theorem test_range_outside_refused :
    refusalOf (.crc16R 2 2) (loaded true [0x01, 0x02, 0x03]) = some (.rangeOutsideBuffer 2 2) := by decide
theorem test_prefix_outside_refused :
    refusalOf (.crc16P 1) (loaded true []) = some (.rangeOutsideBuffer 0 1) := by decide

/-! ### Host actions and the step -/

/-- A state with a host's sequence pending. -/
def presented (s : State) (events : List HostEvent) : State := s.setPending events

/-- The next state of a step, or the state itself where it gives none. -/
def stepped (s : State) : State :=
  match step s with
  | .next t => t
  | .fault _ => s
  | .refused _ => s

theorem test_load_replaces_input : (stepped (presented (loaded true group8) [.load [0x41, 0x00, 0x42], .read])).ilen = 3 ∧
    (stepped (presented (loaded true group8) [.load [0x41, 0x00, 0x42], .read])).ibuf =
      [(0, 0x41#8), (2, 0x42#8)] := by decide
theorem test_read_shows_output :
    ((stepped (presented (after .reorderAbcd (loaded true group4)) [.read])).view.map fun v => (v.obuf, v.olen, v.stat)) =
      some ([0xA3, 0xA2, 0xA1, 0xA0], 4, 0#1) := by decide
theorem test_reset_event_empties_buffers :
    (stepped (presented (after .reorderAbcd (loaded true group4)) [.reset, .read])).olen = 0 ∧
    (stepped (presented (after .reorderAbcd (loaded true group4)) [.reset, .read])).ilen = 0 ∧
    (stepped (presented (after .reorderAbcd (loaded true group4)) [.reset, .read])).hle = true := by decide
/-- The encoding of program P1 of 95 section 3: A, A, 9 (6), 8 (6, 2). -/
theorem test_assemble_p1 :
    assemble 0 [.load [0x01, 0x03, 0x00, 0x00, 0x00, 0x0A], .command .crc16F, .read,
        .load [0x01, 0x03, 0x00, 0x00, 0x00, 0x0A, 0xC5, 0xCD], .command .crc16F, .command (.crc16P 6),
        .command (.crc16R 6 2)] =
      some [.load [0x01, 0x03, 0x00, 0x00, 0x00, 0x0A], .command { word := 0xA#4 }, .read,
        .load [0x01, 0x03, 0x00, 0x00, 0x00, 0x0A, 0xC5, 0xCD], .command { word := 0xA#4 },
        .command { word := 0x9#4, len := 6 }, .command { word := 0x8#4, start := 6, len := 2 }] := by decide
/-- 95 section 2.6: CRC16.T 1 on eight bytes is CRC16.R 1, 7. -/
theorem test_assemble_tail : assembleTail 8 1 = some (.crc16R 1 7) ∧ assembleTail 8 9 = none := by decide
theorem test_table_word_runs_first : (stepped (State.reset.withFetchWord 8 0x3)).stat = 1#1 ∧
    (stepped (State.reset.withFetchWord 8 0x8)).crcLo = 0xFF#8 := by decide
/-- Program P3 of 95 section 3: the failed REORDER keeps the old output. -/
theorem test_failed_reorder_keeps_output :
    (after .reorderDcba ((after .reorderCdab (loaded false [0x11, 0x22, 0x33, 0x44])).setInput [])).obuf =
      Memory.ofBytes [0x22, 0x11, 0x44, 0x33] := by decide

/-! ### Witnesses: states and operands that meet the hypotheses of each statement, at the boundaries of its clauses -/

theorem witness_CommandWordsDecodeByTable : 0xB ≤ (0xB#4).toNat ∧ 0xB ≤ (0xF#4).toNat := by decide

theorem witness_ReservedWordsRefused :
    (presented (loaded true []) [.command { word := 0xB#4 }]).pending = .command { word := 0xB#4 } :: [] ∧
      0xB ≤ (0xB#4).toNat ∧
    (presented (loaded true []) [.command { word := 0xF#4 }]).pending = .command { word := 0xF#4 } :: [] ∧
      0xB ≤ (0xF#4).toNat := by decide

theorem witness_StepRunsPresentedCommand :
    (presented (loaded true group4) [.command { word := 0xA#4 }, .read]).pending = .command { word := 0xA#4 } :: [.read] ∧
      decode { word := 0xA#4 } = .ok .crc16F := by decide

theorem witness_IdleStepChangesNothing : State.reset.pending = [] := by decide

theorem witness_RunConsumesSequenceInOrder :
    Host.Core.run core 1 (presented (loaded true group4) [.load [], .read]) =
      .next (stepped (presented (loaded true group4) [.load [], .read])) := rfl

theorem witness_LoadReplacesInputOnly :
    (presented (loaded true group4) [.load [0x01, 0x02]]).pending = .load [0x01, 0x02] :: [] ∧
      withinMaxLen (presented (loaded true group4) [.load [0x01, 0x02]]).maxLen [0x01#8, 0x02#8].length = true ∧
      0 < [0x01#8, 0x02#8].length ∧ 1 < [0x01#8, 0x02#8].length ∧ [0x01#8, 0x02#8].length ≤ 2 := by decide

theorem witness_ReadObservesResults :
    (presented (after .reorderAbcd (loaded true group4)) [.read]).pending = .read :: [] ∧
      (presented (after .reorderAbcd (loaded true group4)) [.read]).olen = 4 := by decide

theorem witness_LoadBeyondMaxLenRefused :
    (presented (State.afterReset true (some 1) 0) [.load [0x01, 0x02]]).pending = .load [0x01, 0x02] :: [] ∧
      (presented (State.afterReset true (some 1) 0) [.load [0x01, 0x02]]).maxLen = some 1 ∧
      1 < [0x01#8, 0x02#8].length := by decide

/-- The four statements of the 4-byte family: an admitted length with its first and last position, and the two ways to fail. -/
theorem witness_ReorderFourByteRules :
    Admitted 4 (loaded true twoGroups4) ∧ Admitted 4 (loaded false group4) ∧
      0 < (loaded true twoGroups4).ilen / 4 ∧ 1 < (loaded true twoGroups4).ilen / 4 ∧ 0 < 4 ∧ 3 < 4 ∧
      (loaded true twoGroups4).ilen ≤ 8 ∧
      ¬ Admitted 4 (loaded true []) ∧ ¬ Admitted 4 (loaded true [0x11, 0x22, 0x33, 0x44, 0x55]) := by decide

theorem witness_ReorderAbcdRule : Admitted 4 (loaded true group4) ∧ ¬ Admitted 4 (loaded true []) ∧
    (loaded true group4).hle = true ∧
    exec .reorderAbcd (loaded true group4) = .next (after .reorderAbcd (loaded true group4)) ∧
    (after .reorderAbcd (loaded true group4)).stat = 0#1 ∧
    execLoad (observe (after .reorderAbcd (loaded true group4))).obuf (after .reorderAbcd (loaded true group4)) =
      .next ((after .reorderAbcd (loaded true group4)).setInput
        (observe (after .reorderAbcd (loaded true group4))).obuf) :=
  ⟨by decide, by decide, rfl, rfl, by decide, rfl⟩
theorem witness_ReorderCdabRule : Admitted 4 (loaded false twoGroups4) ∧ ¬ Admitted 4 (loaded false [0x11]) := by decide
theorem witness_ReorderBadcRule : Admitted 4 (loaded true twoGroups4) ∧ ¬ Admitted 4 (loaded true [0x11, 0x22]) := by decide
theorem witness_ReorderDcbaRule : Admitted 4 (loaded false group4) ∧
    ¬ Admitted 4 (loaded false [0x11, 0x22, 0x33, 0x44, 0x55]) := by decide
theorem witness_ReorderAbcdefghRule : Admitted 8 (loaded true group8) ∧ ¬ Admitted 8 (loaded true group4) := by decide
theorem witness_ReorderGhefcdabRule : Admitted 8 (loaded false twoGroups8) ∧ ¬ Admitted 8 (loaded false []) := by decide
theorem witness_ReorderBadcfehgRule : Admitted 8 (loaded true twoGroups8) ∧ ¬ Admitted 8 (loaded true group4) := by decide
theorem witness_ReorderHgfedcbaRule : Admitted 8 (loaded false group8) ∧ ¬ Admitted 8 (loaded false group4) := by decide

theorem witness_InvalidArgumentRaisedExactly :
    Instr.reorderAbcd.convention?.isSome = true ∧ (loaded true []).ilen = 0 ∧
    (loaded true group4).ilen % (if (encode .reorderAbcdefgh).word.getLsbD 2 then 8 else 4) ≠ 0 ∧
    exec .reorderAbcd (loaded true []) = .next (after .reorderAbcd (loaded true [])) ∧
    (after .reorderAbcd (loaded true [])).stat = 1#1 := ⟨by decide, by decide, by decide, rfl, by decide⟩

theorem witness_FailedReorderWritesStatOnly :
    Instr.reorderGhefcdab.convention? = some .ghefcdab ∧ ¬ Admitted (groupSize .ghefcdab) (loaded true group4) ∧
      ¬ Admitted (groupSize .ghefcdab) (loaded true []) := by decide

/-- The hypotheses of the statements about an output group: a success with its first and last group. -/
theorem witness_OutputGroupRearrangesInputGroup :
    Instr.reorderBadc.convention? = some .badc ∧
    exec .reorderBadc (loaded true twoGroups4) = .next (after .reorderBadc (loaded true twoGroups4)) ∧
    (after .reorderBadc (loaded true twoGroups4)).stat = 0#1 ∧
    0 < (loaded true twoGroups4).ilen / groupSize .badc ∧ 1 < (loaded true twoGroups4).ilen / groupSize .badc :=
  ⟨rfl, rfl, by decide, by decide, by decide⟩

/-- Two buffers that agree on group 1 and differ on group 0. -/
theorem witness_GroupsIndependent :
    Instr.reorderCdab.convention? = some .cdab ∧
    (loaded true [0x99, 0x22, 0x33, 0x44, 0x55, 0x66, 0x77, 0x88]).ilen = (loaded true twoGroups4).ilen ∧
    (loaded true [0x99, 0x22, 0x33, 0x44, 0x55, 0x66, 0x77, 0x88]).hle = (loaded true twoGroups4).hle ∧
    exec .reorderCdab (loaded true twoGroups4) = .next (after .reorderCdab (loaded true twoGroups4)) ∧
    exec .reorderCdab (loaded true [0x99, 0x22, 0x33, 0x44, 0x55, 0x66, 0x77, 0x88]) =
      .next (after .reorderCdab (loaded true [0x99, 0x22, 0x33, 0x44, 0x55, 0x66, 0x77, 0x88])) ∧
    (after .reorderCdab (loaded true twoGroups4)).stat = 0#1 ∧
    1 < (loaded true twoGroups4).ilen / groupSize .cdab ∧
    (∀ k, k < groupSize .cdab →
      (loaded true [0x99, 0x22, 0x33, 0x44, 0x55, 0x66, 0x77, 0x88]).ibuf.read (1 * groupSize .cdab + k) =
        (loaded true twoGroups4).ibuf.read (1 * groupSize .cdab + k)) ∧
    3 < groupSize .cdab :=
  ⟨rfl, rfl, rfl, rfl, rfl, by decide, by decide, by decide, by decide⟩

theorem witness_ReorderTwiceRestoresInput :
    Instr.reorderGhefcdab.convention? = some .ghefcdab ∧
    exec .reorderGhefcdab (loaded false group8) = .next (after .reorderGhefcdab (loaded false group8)) ∧
    (after .reorderGhefcdab (loaded false group8)).stat = 0#1 ∧
    execLoad (observe (after .reorderGhefcdab (loaded false group8))).obuf (after .reorderGhefcdab (loaded false group8)) =
      .next ((after .reorderGhefcdab (loaded false group8)).setInput
        (observe (after .reorderGhefcdab (loaded false group8))).obuf) :=
  ⟨rfl, rfl, by decide, rfl⟩

theorem witness_HostRelationFourByte :
    Instr.reorderCdab.convention? = some .cdab ∧ groupSize .cdab = 4 ∧ (loaded true group4).hle = true ∧
    (loaded false group4).hle = false ∧ SameInput (loaded true group4) (loaded false group4) ∧
    exec .reorderCdab (loaded true group4) = .next (after .reorderCdab (loaded true group4)) ∧
    exec .reorderCdab (loaded false group4) = .next (after .reorderCdab (loaded false group4)) ∧
    (after .reorderCdab (loaded true group4)).stat = 0#1 ∧ 0 < (loaded true group4).ilen / 4 ∧ 0 < 4 ∧ 3 < 4 :=
  ⟨rfl, rfl, rfl, rfl, ⟨rfl, rfl⟩, rfl, rfl, by decide, by decide, by decide, by decide⟩

theorem witness_HostRelationEightByte :
    Instr.reorderHgfedcba.convention? = some .hgfedcba ∧ (loaded true group8).hle = true ∧
    (loaded false group8).hle = false ∧ SameInput (loaded true group8) (loaded false group8) ∧
    exec .reorderHgfedcba (loaded true group8) = .next (after .reorderHgfedcba (loaded true group8)) ∧
    exec .reorderHgfedcba (loaded false group8) = .next (after .reorderHgfedcba (loaded false group8)) ∧
    (after .reorderHgfedcba (loaded true group8)).stat = 0#1 ∧ 0 < (loaded true group8).ilen / 8 ∧ 0 < 8 ∧ 7 < 8 ∧
    Instr.reorderGhefcdab.convention? = some .ghefcdab ∧ Instr.reorderBadcfehg.convention? = some .badcfehg :=
  ⟨rfl, rfl, rfl, ⟨rfl, rfl⟩, rfl, rfl, by decide, by decide, by decide, by decide, rfl, rfl⟩

theorem witness_EightByteCommandsCompared :
    (loaded true group8).hle = true ∧ (loaded false group8).hle = false ∧ (loaded false group8).ilen = 8 ∧
    (loaded false group8).ibuf.bytes 0 8 =
      [0xA0#8, 0xA1#8, 0xA2#8, 0xA3#8, 0xA4#8, 0xA5#8, 0xA6#8, 0xA7#8] := by decide

theorem witness_ConsumerValueTable :
    Instr.reorderBadcfehg.convention? = some .badcfehg ∧
    exec .reorderBadcfehg (loaded false twoGroups8) = .next (after .reorderBadcfehg (loaded false twoGroups8)) ∧
    (after .reorderBadcfehg (loaded false twoGroups8)).stat = 0#1 ∧
    0 < (loaded false twoGroups8).ilen / groupSize .badcfehg ∧ 1 < (loaded false twoGroups8).ilen / groupSize .badcfehg :=
  ⟨rfl, rfl, by decide, by decide, by decide⟩

/-- 95 S1: two registers, first and last. -/
theorem witness_PackedRegistersInInput :
    withinMaxLen (loaded true []).maxLen (2 * [0x4148#16, 0x0000#16].length) = true ∧
      0 < [0x4148#16, 0x0000#16].length ∧ 1 < [0x4148#16, 0x0000#16].length := by decide

theorem witness_BitStepBitByBit : 1 ≤ 1 ∧ 1 ≤ 12 ∧ 12 ≤ 12 := by decide

/-- A range, an empty range at the end, a range one byte too long, and the worked example's buffer. -/
theorem witness_CrcRangeRule :
    1 + 7 ≤ (loaded true rangeBuffer).ilen ∧ 8 ≤ (loaded true rangeBuffer).ilen ∧
    0 ≤ (loaded true []).ilen ∧ (loaded true rangeBuffer).ilen < 1 + 8 ∧ (loaded true rangeBuffer).ilen < 9 + 0 ∧
    (loaded true rangeBuffer).ilen = 8 ∧
    (loaded true rangeBuffer).ibuf.bytes 0 8 =
      [0xAA#8, 0x01#8, 0x03#8, 0x00#8, 0x00#8, 0x00#8, 0x0A#8, 0xBB#8] := by decide

theorem witness_CrcPrefixRule :
    8 ≤ (loaded true rangeBuffer).ilen ∧ (loaded true rangeBuffer).ilen < 9 ∧
    (loaded true [0x01, 0x03, 0x00, 0x00, 0x00, 0x0A, 0x99, 0x98]).ilen = 8 ∧
    (loaded true [0x01, 0x03, 0x00, 0x00, 0x00, 0x0A, 0x99, 0x98]).ibuf.bytes 0 8 =
      [0x01#8, 0x03#8, 0x00#8, 0x00#8, 0x00#8, 0x0A#8, 0x99#8, 0x98#8] := by decide

theorem witness_CrcFullRule :
    (loaded true []).ilen = 0 ∧ (loaded true [0x01, 0x03, 0x00, 0x00, 0x00, 0x0A]).ilen = 6 ∧
    (loaded true [0x01, 0x03, 0x00, 0x00, 0x00, 0x0A]).ibuf.bytes 0 6 =
      [0x01#8, 0x03#8, 0x00#8, 0x00#8, 0x00#8, 0x0A#8] := by decide

theorem witness_ChecksumPairFromAccumulator :
    Instr.crc16F.convention? = none ∧ exec .crc16F (loaded true group4) = .next (after .crc16F (loaded true group4)) :=
  ⟨rfl, rfl⟩

theorem witness_ChecksumNeverRaises :
    (Instr.crc16R 8 0).convention? = none ∧ (Instr.crc16R 8 0).inContract (loaded true rangeBuffer).ilen = true ∧
    exec (.crc16P 1) (loaded true group4) = .next (after (.crc16P 1) (loaded true group4)) :=
  ⟨rfl, by decide, rfl⟩

theorem witness_ChecksumForgetsPreviousResult : (Instr.crc16P 3).convention? = none := rfl

theorem witness_FrameVerificationWaysAgree :
    (loaded true [0x01, 0x03, 0x00, 0x00, 0x00, 0x0A, 0xC5, 0xCD]).ilen = 6 + 2 ∧ (loaded true [0xFF, 0xFF]).ilen = 0 + 2 := by
  decide

theorem witness_ChecksumAffinity : [0x01#8, 0x03#8].length = [0x41#8, 0x42#8].length := rfl

/-- The range [2, 5) of the buffer of 95 section 2.6, and a buffer that holds exactly it. -/
theorem witness_RangeFormAgreesWithFullForm :
    2 + 3 ≤ (loaded true rangeBuffer).ilen ∧ (loaded true [0x03, 0x00, 0x00]).ilen = 3 ∧
    (∀ k, k < 3 → (loaded true [0x03, 0x00, 0x00]).ibuf.read k = (loaded true rangeBuffer).ibuf.read (2 + k)) := by decide

theorem witness_TailPseudoInstruction : 1 ≤ (loaded true rangeBuffer).ilen ∧ 8 ≤ (loaded true rangeBuffer).ilen ∧
    (loaded true rangeBuffer).ilen < 9 := by decide

theorem witness_OutOfContractCommandsRefused :
    (presented (loaded true [0x01]) [.command { word := 0x8#4, start := 1, len := 1 }]).pending =
      .command { word := 0x8#4, start := 1, len := 1 } :: [] ∧ (loaded true [0x01]).ilen < 1 + 1 ∧
    (presented (loaded true [0x01]) [.command { word := 0x9#4, len := 2 }]).pending =
      .command { word := 0x9#4, len := 2 } :: [] ∧ (loaded true [0x01]).ilen < 2 := by decide

theorem witness_InContractCommandsComplete :
    Instr.inContract (loaded true rangeBuffer).ilen (.crc16R 1 7) = true ∧
    Instr.inContract (loaded true []).ilen .reorderAbcd = true := by decide

theorem witness_WriteAccessRights :
    step (presented (loaded true group4) [.command { word := 0x0#4 }]) =
      .next (stepped (presented (loaded true group4) [.command { word := 0x0#4 }])) ∧
    step (presented (loaded true group4) [.command { word := 0xA#4 }]) =
      .next (stepped (presented (loaded true group4) [.command { word := 0xA#4 }])) ∧
    step (presented (loaded true group4) [.read]) = .next (stepped (presented (loaded true group4) [.read])) ∧
    (0xA#4).getLsbD 3 = true ∧ (0x0#4).getLsbD 3 = false ∧
    (∀ rest, (presented (loaded true group4) [.read]).pending ≠ .reset :: rest) :=
  ⟨rfl, rfl, rfl, by decide, by decide, fun _ h => nomatch h⟩

theorem witness_UnitsIndependent :
    exec .reorderAbcd (loaded true group4) = .next (after .reorderAbcd (loaded true group4)) ∧
    Instr.reorderAbcd.convention?.isSome = true ∧
    exec .crc16F (loaded true group4) = .next (after .crc16F (loaded true group4)) ∧ Instr.crc16F.convention? = none :=
  ⟨rfl, by decide, rfl, rfl⟩

/-- A success followed by a success, a success followed by a checksum, and a failure followed by a checksum. -/
theorem witness_SecondCommandSeesOriginalInput :
    Instr.reorderAbcd.convention?.isSome = true ∧
    exec .reorderAbcd (loaded true group4) = .next (after .reorderAbcd (loaded true group4)) ∧
    exec .reorderBadc (after .reorderAbcd (loaded true group4)) =
      .next (after .reorderBadc (after .reorderAbcd (loaded true group4))) ∧
    (after .reorderBadc (after .reorderAbcd (loaded true group4))).stat = 0#1 ∧
    exec (.crc16P 1) (after .reorderAbcd (loaded true group4)) =
      .next (after (.crc16P 1) (after .reorderAbcd (loaded true group4))) ∧
    exec .reorderAbcd (loaded true [0x01]) = .next (after .reorderAbcd (loaded true [0x01])) ∧
    exec .crc16F (after .reorderAbcd (loaded true [0x01])) =
      .next (after .crc16F (after .reorderAbcd (loaded true [0x01]))) :=
  ⟨by decide, rfl, rfl, by decide, rfl, rfl, rfl⟩

theorem witness_ResetEventRestoresResetValues :
    (presented (loaded true group4) [.reset, .read]).pending = .reset :: [.read] := by decide

theorem witness_ParametersNeverChange :
    Host.Core.run core 1 (presented (loaded true group4) [.reset]) =
      .next (stepped (presented (loaded true group4) [.reset])) := rfl

theorem witness_AssembledProgramKeepsLines :
    assemble 0 [.load [0x11], .tail 1, .command .crc16F] =
      some [.load [0x11], .command { word := 0x8#4, start := 1, len := 0 }, .command { word := 0xA#4 }] ∧
    2 < [AsmLine.load [0x11], .tail 1, .command .crc16F].length ∧
    [AsmLine.load [0x11], .tail 1, .command .crc16F][2] = .command .crc16F := by decide

theorem witness_InvariantKeptByStep :
    (presented (loaded true group4) [.command { word := 0x0#4 }]).Inv ∧
    step (presented (loaded true group4) [.command { word := 0x0#4 }]) =
      .next (stepped (presented (loaded true group4) [.command { word := 0x0#4 }])) :=
  ⟨by decide, rfl⟩

end Sys2Proof.Tests
end

namespace Sys2Proof.Machine

/-! ### What a command answers, from its convention or its range -/

/-- A REORDER command on a bad length completes with InvalidArgument (R184). -/
theorem exec_rejected {i : Instr} {c : Convention} {s : State} (hc : i.convention? = some c)
    (h : ¬ (s.ilen ≠ 0 ∧ s.ilen % groupSize c = 0)) : exec i s = .next (s.setStat statInvalidArgument) := by
  rw [exec_reorder hc, reorder_rejected h, raiseInvalidArgument]

/-- A REORDER command on an admitted length completes with the gathered rows as its output (R100). -/
theorem exec_admitted {i : Instr} {c : Convention} {s : State} (hc : i.convention? = some c)
    (h : s.ilen ≠ 0 ∧ s.ilen % groupSize c = 0) :
    exec i s = .next ((s.setOutput (gatherRows s (groupSize c) (perm c s.hle) (s.ilen / groupSize c)) s.ilen).setStat
      statOk) := by
  rw [exec_reorder hc, reorder_admitted h, complete]

/-- A checksum command over a range inside the buffer completes with the checksum of its bytes (R143). -/
theorem exec_inside {i : Instr} {s : State} {r : ByteRange} (hr : range? s i = some r) (h : r.start + r.len ≤ s.ilen) :
    exec i s = .next ((s.setChecksum (crcOf (s.ibuf.bytes r.start r.len))).setStat statOk) := by
  rw [exec_checksum hr, checksum_inside h, complete]

/-- The range of a checksum command reads the length of the input and nothing else of the state (R83). -/
theorem range?_congr {s s' : State} (h : s'.ilen = s.ilen) (i : Instr) : range? s' i = range? s i := by
  cases i <;> simp [range?, rangeFull, h]

/-- No command writes CFG.HLE (R21). -/
theorem exec_keeps_hle {i : Instr} {s t : State} (h : exec i s = .next t) : t.hle = s.hle := by
  obtain ⟨_, _, _, rfl⟩ | ⟨_, _, _, rfl⟩ | ⟨_, _, _, _, rfl⟩ := exec_next_cases h <;> rfl

/-! ### R2: the two units are independent -/

/-- A REORDER writes none of ACC, CRCLO and CRCHI. -/
theorem exec_reorder_sameChecksum {i : Instr} {c : Convention} {s t : State} (hc : i.convention? = some c)
    (h : exec i s = .next t) : SameChecksum s t := by
  obtain ⟨_, _, _, rfl⟩ | ⟨_, _, _, rfl⟩ | ⟨_, hn, _⟩ := exec_next_cases h
  · simp [SameChecksum]
  · simp [SameChecksum]
  · simp [hc] at hn

/-- A REORDER reads none of ACC, CRCLO and CRCHI: other values there come through it unchanged. The length test and the
gathered rows are terms in ILEN, IBUF and CFG.HLE only, so both states meet the same equation. -/
theorem exec_reorder_ignores_checksum {i : Instr} {c : Convention} {s t : State} (hc : i.convention? = some c)
    (h : exec i s = .next t) (a : Half) (lo hi : Byte) :
    exec i { s with acc := a, crcLo := lo, crcHi := hi } = .next { t with acc := a, crcLo := lo, crcHi := hi } := by
  obtain ⟨_, hc', hbad, rfl⟩ | ⟨_, hc', hok, rfl⟩ | ⟨_, hn, _⟩ := exec_next_cases h
  · exact exec_rejected hc' hbad
  · exact exec_admitted hc' hok
  · simp [hc] at hn

/-- A checksum command writes neither OBUF nor OLEN. -/
theorem exec_checksum_sameOutput {i : Instr} {s t : State} (hn : i.convention? = none) (h : exec i s = .next t) :
    SameOutput s t := by
  obtain ⟨_, hc, _⟩ | ⟨_, hc, _⟩ | ⟨_, _, _, _, rfl⟩ := exec_next_cases h
  · simp [hn] at hc
  · simp [hn] at hc
  · simp [SameOutput]

/-- A checksum command reads none of CFG.HLE, OBUF and OLEN: other values there come through it unchanged. -/
theorem exec_checksum_ignores_output_and_order {i : Instr} {s t : State} (hn : i.convention? = none)
    (h : exec i s = .next t) (hle : Bool) (out : Memory) (n : Nat) :
    exec i { s with hle := hle, obuf := out, olen := n } = .next { t with hle := hle, obuf := out, olen := n } := by
  obtain ⟨_, hc, _⟩ | ⟨_, hc, _⟩ | ⟨_, _, hr, hin, rfl⟩ := exec_next_cases h
  · simp [hn] at hc
  · simp [hn] at hc
  · exact exec_inside ((range?_congr rfl i).trans hr) hin

/-- Settles O48: what a completing command answers is one of three updates (`exec_next_cases`), and neither the REORDER
updates nor the checksum update speak of the other unit's elements. -/
theorem unitsIndependent : Obligations.UnitsIndependent := by
  intro i s t h
  refine ⟨fun hsome => ?_, fun hn => ⟨exec_checksum_sameOutput hn h, fun hle => ?_, fun out n => ?_⟩⟩
  · obtain ⟨c, hc⟩ := Option.isSome_iff_exists.mp hsome
    exact ⟨exec_reorder_sameChecksum hc h, exec_reorder_ignores_checksum hc h⟩
  · obtain ⟨holen, hobuf⟩ := exec_checksum_sameOutput hn h
    simpa only [holen, hobuf] using exec_checksum_ignores_output_and_order hn h hle s.obuf s.olen
  · simpa only [exec_keeps_hle h] using exec_checksum_ignores_output_and_order hn h s.hle out n

end Sys2Proof.Machine

namespace Sys2Proof.Machine

/-! ### CMD[3] tells the two kinds of command apart -/

@[simp] theorem convention?_reorderInstr (c : Convention) : (reorderInstr c).convention? = some c := by
  cases c <;> rfl

/-- FORM selects a checksum command, never a REORDER (R82). -/
theorem checksumOfField_convention? {form : BitVec 3} {start len : Nat} {i : Instr}
    (h : checksumOfField form start len = some i) : i.convention? = none := by
  unfold checksumOfField at h
  split at h <;> cases h <;> rfl

/-- A presented word of format C decodes to a checksum command (R80). -/
theorem decode_formatC {r : Request} {i : Instr} (hbit : r.word.getLsbD 3 = true) (h : decode r = .ok i) :
    i.convention? = none := by
  simp only [decode, hbit, if_true] at h
  split at h
  · rename_i j hj
    cases h
    exact checksumOfField_convention? hj
  · cases h

/-- A presented word of format P decodes to the REORDER that its field CONV names (R80, R81). -/
theorem decode_formatP {r : Request} {i : Instr} (hbit : r.word.getLsbD 3 = false) (h : decode r = .ok i) :
    i.convention? = some (conventionOfField (r.word.extractLsb' 0 3)) := by
  simp only [decode, hbit, Bool.false_eq_true, if_false] at h
  cases h
  exact convention?_reorderInstr _

/-! ### R32: who writes which state -/

/-- No command writes CFG, and none changes MAXLEN. -/
theorem exec_sameConfig {i : Instr} {s t : State} (h : exec i s = .next t) : SameConfig s t := by
  obtain ⟨_, _, _, rfl⟩ | ⟨_, _, _, rfl⟩ | ⟨_, _, _, _, rfl⟩ := exec_next_cases h <;> exact ⟨rfl, rfl⟩

/-- No command writes IBUF or ILEN: only LOAD does. -/
theorem exec_sameInput {i : Instr} {s t : State} (h : exec i s = .next t) : SameInput s t := by
  obtain ⟨_, _, _, rfl⟩ | ⟨_, _, _, rfl⟩ | ⟨_, _, _, _, rfl⟩ := exec_next_cases h <;> exact ⟨rfl, rfl⟩

/-- The host cannot read ACC: it is not among what a READ observes (R24). -/
theorem observe_ignores_acc (s : State) (a : Half) : observe { s with acc := a } = observe s := rfl

/-- Settles O47: of the shapes a step can have (`step_next_cases`), idling changes nothing, LOAD writes the input, READ the
host's own fields, and a command what its unit owns, which the bit CMD[3] of the presented word decides. -/
theorem writeAccessRights : Obligations.WriteAccessRights := by
  refine ⟨fun s t hstep hreset => ?_, observe_ignores_acc⟩
  obtain ⟨_, rfl⟩ | ⟨bytes, rest, hp, _, rfl⟩ | ⟨rest, _, rfl⟩ | ⟨r, i, rest, hp, hd, hexec⟩ | ⟨rest, hp, _⟩ :=
    step_next_cases hstep
  · simp [SameConfig, SameInput, SameOutput, SameChecksum]
  · exact ⟨⟨rfl, rfl⟩, fun hne => absurd hp (hne bytes rest), fun _ => ⟨rfl, rfl⟩, fun _ => ⟨rfl, rfl, rfl⟩, fun _ => rfl⟩
  · simp [SameConfig, SameInput, SameOutput, SameChecksum]
  · -- the command's frame is over `s.setPending rest`, which differs from `s` in no element the frame speaks of
    have hconfig := exec_sameConfig hexec
    have hinput := exec_sameInput hexec
    refine ⟨hconfig, fun _ => hinput, fun hbit => ?_, fun hbit => ?_, fun hne => absurd hp (hne r rest)⟩
    · have houtput := exec_checksum_sameOutput (decode_formatC (hbit r rest hp) hd) hexec
      exact houtput
    · have hchecksum := exec_reorder_sameChecksum (decode_formatP (hbit r rest hp) hd) hexec
      exact hchecksum
  · exact absurd hp (hreset rest)

/-! ### R31: the values after reset -/

/-- What a reset leaves of the elements R31 gives a value, for each HOST_LE. -/
theorem afterReset_values (hostLE : Bool) (maxLen : Option Nat) (n : Nat) :
    (State.afterReset hostLE maxLen n).hle = hostLE ∧ (State.afterReset hostLE maxLen n).ilen = 0 ∧
    (State.afterReset hostLE maxLen n).ibuf = [] ∧ (State.afterReset hostLE maxLen n).olen = 0 ∧
    (State.afterReset hostLE maxLen n).obuf = [] ∧ (State.afterReset hostLE maxLen n).stat = 0#1 :=
  ⟨rfl, rfl, rfl, rfl, rfl, rfl⟩

/-- Settles O51: `State.reset` is the state after a reset with the free constant HOST_LE. -/
theorem resetValues : Obligations.ResetValues :=
  ⟨afterReset_values, afterReset_values Config.hostLE Config.maxLen 0⟩

end Sys2Proof.Machine

namespace Sys2Proof.Machine

/-! ### R84: the words of the opcode map -/

theorem conventionOfField_fieldOfConvention (c : Convention) : conventionOfField (fieldOfConvention c) = c := by
  cases c <;> rfl

/-- CMD[3] = 0 over CONV is the REORDER of the convention, whatever the operands (R80, R81). -/
theorem decode_reorderWord (c : Convention) (start len : Nat) :
    decode { word := 0#1 ++ fieldOfConvention c, start := start, len := len } = .ok (reorderInstr c) := by
  have hbit : (0#1 ++ fieldOfConvention c).getLsbD 3 = false := by cases c <;> rfl
  have hfield : (0#1 ++ fieldOfConvention c).extractLsb' 0 3 = fieldOfConvention c := by cases c <;> rfl
  simp only [decode, hbit, hfield, conventionOfField_fieldOfConvention, Bool.false_eq_true, if_false]

/-- CMD[3] = 1 over an assigned FORM is that form's command with the operands it takes (R80, R82). -/
theorem decode_checksumWord {form : BitVec 3} {start len : Nat} {i : Instr} (h : checksumOfField form start len = some i) :
    decode { word := 1#1 ++ form, start := start, len := len } = .ok i := by
  have hword : ∀ f : BitVec 3, (1#1 ++ f).getLsbD 3 = true ∧ (1#1 ++ f).extractLsb' 0 3 = f := by decide
  obtain ⟨hbit, hfield⟩ := hword form
  simp only [decode, hbit, hfield, h, if_true]

/-! ### R85: the reserved words -/

/-- The values 3 to 7 of FORM are reserved (R82). -/
theorem checksumOfField_reserved {form : BitVec 3} (h : 3 ≤ form.toNat) (start len : Nat) :
    checksumOfField form start len = none := by
  unfold checksumOfField
  split
  · omega
  · omega
  · omega
  · rfl

/-- A word from 0xB on is of format C with a reserved FORM. -/
theorem reservedWord_fields : ∀ w : BitVec 4, 0xB ≤ w.toNat → w.getLsbD 3 = true ∧ 3 ≤ (w.extractLsb' 0 3).toNat := by
  decide

/-- A reserved word is rejected by name, whatever the operands. -/
theorem decode_reserved {r : Request} (h : 0xB ≤ r.word.toNat) : decode r = .error (.reservedWord r.word) := by
  obtain ⟨hbit, hform⟩ := reservedWord_fields r.word h
  simp only [decode, hbit, checksumOfField_reserved hform, if_true]

/-- Settles O1: 0x0 to 0x7 are the eight conventions under CMD[3] = 0, 0x8 to 0xA the three forms under CMD[3] = 1, and from
0xB on FORM is reserved. -/
theorem commandWordsDecodeByTable : Obligations.CommandWordsDecodeByTable := fun start len =>
  ⟨decode_reorderWord .abcd start len, decode_reorderWord .cdab start len, decode_reorderWord .badc start len,
    decode_reorderWord .dcba start len, decode_reorderWord .abcdefgh start len, decode_reorderWord .ghefcdab start len,
    decode_reorderWord .badcfehg start len, decode_reorderWord .hgfedcba start len,
    decode_checksumWord (form := 0b000#3) rfl, decode_checksumWord (form := 0b001#3) rfl,
    decode_checksumWord (form := 0b010#3) rfl, fun _ hw => decode_reserved hw⟩

/-- A step with a command presented takes it off the host's sequence and issues it (R60, R207). -/
theorem step_command {s : State} {r : Request} {rest : List HostEvent} (h : s.pending = .command r :: rest) :
    step s = issue r (s.setPending rest) := by
  simp [step, nextEvent_cons h, act]

/-- A request that decodes to no command is refused, in every state (R183, R188 (a)). -/
theorem issue_error {r : Request} {w : BitVec 4} (h : decode r = .error (.reservedWord w)) (s : State) :
    issue r s = .refused (.reservedCommandWord w) := by
  simp [issue, h]

/-- Settles O4: the presented request is issued, and its word decodes to no command. -/
theorem reservedWordsRefused : Obligations.ReservedWordsRefused := by
  intro s r rest hp hw
  rw [step_command hp, issue_error (decode_reserved hw)]

end Sys2Proof.Machine

namespace Sys2Proof.Machine

/-! ### R100: a command rule from a convention -/

/-- A position of a whole group lies inside the buffer (R53). -/
theorem group_position_lt {n size g j : Nat} (hg : g < n / size) (hj : j < size) : g * size + j < n :=
  calc
    g * size + j < (g + 1) * size := by rw [Nat.add_mul, Nat.one_mul]; omega
    _ ≤ n / size * size := Nat.mul_le_mul_right size hg
    _ ≤ n := Nat.div_mul_le_self n size

/-- Within group `g` the gather moves by `p` alone. -/
theorem gathered_group (s : State) {size i : Nat} (p : List Nat) (g : Nat) (hi : i < size) :
    gathered s size p (g * size + i) = s.ibuf.read (g * size + p.getD i 0) := by
  have hdiv : (g * size + i) / size = g := by
    rw [Nat.mul_comm, Nat.mul_add_div (by omega), Nat.div_eq_of_lt hi, Nat.add_zero]
  have hmod : (g * size + i) % size = i := by rw [Nat.mul_comm, Nat.mul_add_mod, Nat.mod_eq_of_lt hi]
  rw [gathered, hdiv, hmod]

/-- The update a successful REORDER makes is the result R100 describes. -/
theorem reordered_gatherRows {c : Convention} {s : State} (p : List Nat) (h : Admitted (groupSize c) s) :
    Reordered (groupSize c) p s
      ((s.setOutput (gatherRows s (groupSize c) p (s.ilen / groupSize c)) s.ilen).setStat statOk) := by
  have hread := gatherRows_read_admitted h.2 p
  refine ⟨rfl, rfl, fun g i hg hi => ?_, fun a ha => ?_, ⟨rfl, rfl⟩, ⟨rfl, rfl⟩, ⟨rfl, rfl, rfl⟩, ⟨rfl, rfl, rfl⟩⟩
  · rw [State.setStat_obuf, State.setOutput_obuf, hread, if_pos (group_position_lt hg hi), gathered_group s p g hi]
  · rw [State.setStat_obuf, State.setOutput_obuf, hread, if_neg (Nat.not_lt.mpr ha)]

/-- A REORDER command on an admitted length completes with its convention's permutation for the latched host order. -/
theorem exec_reordered {i : Instr} {c : Convention} {s : State} (hc : i.convention? = some c)
    (h : Admitted (groupSize c) s) : ∃ t, exec i s = .next t ∧ Reordered (groupSize c) (perm c s.hle) s t :=
  ⟨_, exec_admitted hc h, reordered_gatherRows _ h⟩

/-- A REORDER command that completes with STAT = 0 met an admitted length. -/
theorem admitted_of_success {i : Instr} {c : Convention} {s t : State} (hc : i.convention? = some c)
    (h : exec i s = .next t) (hstat : t.stat = 0#1) : Admitted (groupSize c) s := by
  by_contra hbad
  rw [exec_rejected hc hbad] at h
  cases h
  simp [statInvalidArgument] at hstat

/-- What a REORDER command that completes with STAT = 0 leaves. -/
theorem reordered_of_success {i : Instr} {c : Convention} {s t : State} (hc : i.convention? = some c)
    (h : exec i s = .next t) (hstat : t.stat = 0#1) : Reordered (groupSize c) (perm c s.hle) s t := by
  obtain ⟨t', ht', hre⟩ := exec_reordered hc (admitted_of_success hc h hstat)
  cases ht'.symm.trans h
  exact hre

/-- The whole rule of a REORDER command, read off its row of the permutation table (R90). -/
theorem reorderInstr_rule (c : Convention) :
    ReorderRule (0#1 ++ fieldOfConvention c) (reorderInstr c) (groupSize c) (perm c true) (perm c false) := by
  have hc := convention?_reorderInstr c
  refine ⟨decode_reorderWord c, fun s hok => ?_, fun s hbad => exec_rejected hc hbad⟩
  have hperm : (if s.hle then perm c true else perm c false) = perm c s.hle := by cases s.hle <;> rfl
  rw [hperm]
  exact exec_reordered hc hok

/-! ### R106 (b): a command, its output loaded back, and the command again -/

/-- Every permutation of the table is its own inverse. -/
theorem perm_involutive (c : Convention) (hle : Bool) (i : Nat) (hi : i < groupSize c) :
    (perm c hle).getD ((perm c hle).getD i 0) 0 = i := by
  revert i
  cases c <;> cases hle <;> decide

/-- A LOAD that completes is the update of the input. -/
theorem execLoad_next {bytes : List Byte} {s t : State} (h : execLoad bytes s = .next t) : t = s.setInput bytes := by
  unfold execLoad at h
  split at h <;> cases h
  rfl

/-- What a READ lists of OBUF, loaded, reads as OBUF below OLEN. -/
theorem read_ofBytes_observe (s : State) {k : Nat} (hk : k < s.olen) :
    (Memory.ofBytes (observe s).obuf).read k = s.obuf.read k := by
  simp [Memory.read_ofBytes, observe, Memory.bytes, hk]

/-- Reordering by `p`, and reordering the result by `p` again where `p` is its own inverse, restores the bytes: position `i` of
a group receives position `p[p[i]]`. -/
theorem Reordered.twice {size : Nat} {p : List Nat} {s t v u : State} (hst : Reordered size p s t)
    (hvu : Reordered size p v u) (hlen : v.ilen = s.ilen) (hback : ∀ k, k < s.ilen → v.ibuf.read k = t.obuf.read k)
    (hmod : s.ilen % size = 0) (hsize : 0 < size) (hlt : ∀ i, i < size → p.getD i 0 < size)
    (hinv : ∀ i, i < size → p.getD (p.getD i 0) 0 = i) {k : Nat} (hk : k < s.ilen) :
    u.obuf.read k = s.ibuf.read k := by
  obtain ⟨-, -, hfirst, -⟩ := hst
  obtain ⟨-, -, hsecond, -⟩ := hvu
  have hg : k / size < s.ilen / size := Nat.div_lt_div_of_lt_of_dvd (Nat.dvd_of_mod_eq_zero hmod) hk
  have hi : k % size < size := Nat.mod_lt k hsize
  have hj := hlt _ hi
  calc
    u.obuf.read k = u.obuf.read (k / size * size + k % size) := by rw [Nat.div_add_mod']
    _ = v.ibuf.read (k / size * size + p.getD (k % size) 0) := hsecond _ _ (hlen ▸ hg) hi
    _ = t.obuf.read (k / size * size + p.getD (k % size) 0) := hback _ (group_position_lt hg hj)
    _ = s.ibuf.read (k / size * size + p.getD (p.getD (k % size) 0) 0) := hfirst _ _ hg hj
    _ = s.ibuf.read k := by rw [hinv _ hi, Nat.div_add_mod']

/-- A REORDER command that succeeds, its output loaded back by LOAD, and the same command again: it succeeds with the original
bytes. -/
theorem exec_twice_restores {i : Instr} {c : Convention} {s t v : State} (hc : i.convention? = some c)
    (h : exec i s = .next t) (hstat : t.stat = 0#1) (hload : execLoad (observe t).obuf t = .next v) :
    ∃ u, exec i v = .next u ∧ u.stat = 0#1 ∧ u.olen = s.ilen ∧ ∀ k, k < s.ilen → u.obuf.read k = s.ibuf.read k := by
  obtain ⟨hne, hmod⟩ := admitted_of_success hc h hstat
  have hst := reordered_of_success hc h hstat
  obtain rfl := execLoad_next hload
  have holen : t.olen = s.ilen := hst.1
  have hilen : (t.setInput (observe t).obuf).ilen = s.ilen := by simp [observe, Memory.bytes, holen]
  have hhle : (t.setInput (observe t).obuf).hle = s.hle :=
    (State.setInput_hle t _).trans (exec_keeps_hle h)
  have hadm : Admitted (groupSize c) (t.setInput (observe t).obuf) := by rw [Admitted, hilen]; exact ⟨hne, hmod⟩
  obtain ⟨u, hu, hvu⟩ := exec_reordered hc hadm
  rw [hhle] at hvu
  refine ⟨u, hu, hvu.2.1, hvu.1.trans hilen, fun k hk => ?_⟩
  exact hst.twice hvu hilen (fun j hj => read_ofBytes_observe t (holen ▸ hj)) hmod (groupSize_pos c) (perm_lt c s.hle)
    (perm_involutive c s.hle) hk

/-! ### R101 to R104: the 4-byte family -/

/-- Settles O11: the rule is the row of ABCD; the corner case holds because the permutation is its own inverse,
and on a big-endian host as well, so the hypothesis on CFG.HLE is not used. -/
theorem reorderAbcdRule : Obligations.ReorderAbcdRule := by
  refine ⟨reorderInstr_rule .abcd, fun s t v _ h hstat hload => ?_⟩
  obtain ⟨u, hu, -, -, hbytes⟩ := exec_twice_restores rfl h hstat hload
  exact ⟨u, hu, hbytes⟩

/-- Settles O12: the row of CDAB. -/
theorem reorderCdabRule : Obligations.ReorderCdabRule := reorderInstr_rule .cdab

/-- Settles O13: the row of BADC. -/
theorem reorderBadcRule : Obligations.ReorderBadcRule := reorderInstr_rule .badc

/-- Settles O14: the row of DCBA. -/
theorem reorderDcbaRule : Obligations.ReorderDcbaRule := reorderInstr_rule .dcba

end Sys2Proof.Machine

namespace Sys2Proof.Machine

/-! ### R121 and R124: the 8-byte family's rules that follow the spec's stated table -/

/-- Settles O15: the row of ABCDEFGH, the full reversal on a little-endian host and the identity on a big-endian one; the
length test is the common rule's and does not depend on the permutation. -/
theorem reorderAbcdefghRule : Obligations.ReorderAbcdefghRule := reorderInstr_rule .abcdefgh

/-- Settles O18: the row of HGFEDCBA, the identity on a little-endian host and the full reversal on a big-endian one; the
identity too is gathered into a separate OBUF by the common rule. -/
theorem reorderHgfedcbaRule : Obligations.ReorderHgfedcbaRule := reorderInstr_rule .hgfedcba

end Sys2Proof.Machine

namespace Sys2Proof.Machine

/-! ### R141 and R142: the byte step -/

/-- `bitSteps` iterates the bit step. -/
theorem bitSteps_eq_iterate (n : Nat) (a : Half) : bitSteps n a = bitStep^[n] a := by
  induction n generalizing a with
  | zero => rfl
  | succ n ih => rw [bitSteps, ih, Function.iterate_succ_apply]

/-- The byte does not reach bits 15:8 of the accumulator. -/
theorem highByte_xor_zext16 (a : Half) (b : Byte) : highByte (a ^^^ zext16 b) = highByte a := by
  have hzero : highByte (zext16 b) = 0#8 := BitVec.eq_of_getLsbD_eq fun i _ => by
    simp [highByte, zext16]
  rw [highByte, BitVec.extractLsb'_xor, ← highByte, ← highByte, hzero, BitVec.xor_zero]

/-- Bits 7:0 of the accumulator take the byte. -/
theorem lowByte_xor_zext16 (a : Half) (b : Byte) : lowByte (a ^^^ zext16 b) = lowByte a ^^^ b := by
  have hlow : lowByte (zext16 b) = b := by
    rw [lowByte, zext16, BitVec.extractLsb'_setWidth_of_le (by omega), BitVec.extractLsb'_eq_self]
  rw [lowByte, BitVec.extractLsb'_xor, ← lowByte, ← lowByte, hlow]

/-- Settles O30: the repetition of the bit step is the function's iterate, and the zero-extended byte is 0 in bits 15:8. -/
theorem byteStepIsEightBitSteps : Obligations.ByteStepIsEightBitSteps := fun a b =>
  ⟨bitSteps_eq_iterate 8 (a ^^^ zext16 b), highByte_xor_zext16 a b, lowByte_xor_zext16 a b⟩

/-! ### R143: a checksum command's result from its range -/

/-- A checksum command over a range inside the buffer completes with the result R143 describes. -/
theorem exec_checksummed {i : Instr} {s : State} {r : ByteRange} (hr : range? s i = some r)
    (h : r.start + r.len ≤ s.ilen) : ∃ t, exec i s = .next t ∧ Checksummed r.start r.len s t :=
  ⟨_, exec_inside hr h, rfl, rfl, rfl, ⟨rfl, rfl⟩, ⟨rfl, rfl⟩, ⟨rfl, rfl⟩, ⟨rfl, rfl, rfl⟩⟩

/-- A checksum command over a range not inside the buffer is refused (R188 (b)). -/
theorem exec_outside {i : Instr} {s : State} {r : ByteRange} (hr : range? s i = some r)
    (h : s.ilen < r.start + r.len) : exec i s = .refused (.rangeOutsideBuffer r.start r.len) := by
  rw [exec_checksum hr, checksum_outside (Nat.not_le.mpr h)]

/-- The pair a checksum command delivers, where the bytes of its range are known (R147). -/
theorem exec_pair_of_bytes {i : Instr} {s : State} {r : ByteRange} {m : List Byte} (hr : range? s i = some r)
    (h : r.start + r.len ≤ s.ilen) (hm : s.ibuf.bytes r.start r.len = m) :
    ∃ t, exec i s = .next t ∧ t.crcLo = lowByte (crcOf m) ∧ t.crcHi = highByte (crcOf m) :=
  ⟨_, exec_inside hr h, by rw [hm]; exact ⟨rfl, rfl⟩⟩

/-- An empty range inside the buffer delivers FF FF: no byte is folded into INIT (R144). -/
theorem exec_empty_pair {i : Instr} {s : State} {start : Nat} (hr : range? s i = some (rangeExplicit start 0))
    (h : start ≤ s.ilen) : ∃ t, exec i s = .next t ∧ t.crcLo = 0xFF#8 ∧ t.crcHi = 0xFF#8 :=
  exec_pair_of_bytes (m := []) hr h rfl

/-! ### R146: the known vector -/

/-- The source's known vector (R146). -/
def knownVector : List Byte := [0x01#8, 0x03#8, 0x00#8, 0x00#8, 0x00#8, 0x0A#8]

/-- The accumulator after each byte of the known vector (R146). -/
theorem crcOf_take_knownVector : [1, 2, 3, 4, 5, 6].map (fun n => crcOf (knownVector.take n)) =
    [0x807E#16, 0x2140#16, 0xF020#16, 0xD8F1#16, 0x8419#16, 0xCDC5#16] := by decide

/-- The final one of these. -/
theorem crcOf_knownVector : crcOf knownVector = 0xCDC5#16 :=
  Option.some.inj (congrArg List.getLast? crcOf_take_knownVector)

/-- A checksum command over the known vector delivers C5 CD. -/
theorem exec_knownVector_pair {i : Instr} {s : State} {r : ByteRange} (hr : range? s i = some r)
    (h : r.start + r.len ≤ s.ilen) (hm : s.ibuf.bytes r.start r.len = knownVector) :
    ∃ t, exec i s = .next t ∧ t.crcLo = 0xC5#8 ∧ t.crcHi = 0xCD#8 := by
  have hpair := exec_pair_of_bytes hr h hm
  rw [crcOf_knownVector] at hpair
  exact hpair

/-- The bytes of a part of a range are that part of the bytes. -/
theorem Memory.bytes_slice (m : Memory) {start n k len : Nat} (h : k + len ≤ n) :
    m.bytes (start + k) len = ((m.bytes start n).drop k).take len := by
  have hlen : len = min len (n - k) := by omega
  refine List.ext_getElem (by simpa [Memory.bytes] using hlen) fun i _ _ => ?_
  simp [Memory.bytes, Nat.add_assoc]

/-! ### R144 to R146: the three forms -/

/-- Settles O31: the range of CRC16.R is its operands; bytes 1 to 6 of the worked example's buffer are the known vector. -/
theorem crcRangeRule : Obligations.CrcRangeRule := by
  refine ⟨fun start len => decode_checksumWord (form := 0b000#3) rfl, fun s start len hin => exec_checksummed (r := rangeExplicit start len) rfl hin,
    fun s start hin => exec_empty_pair rfl hin, fun s start len hout => exec_outside (r := rangeExplicit start len) rfl hout, fun s hlen hbytes => ?_⟩
  have hvector : s.ibuf.bytes 1 6 = knownVector := by
    rw [Memory.bytes_slice s.ibuf (start := 0) (n := 8) (k := 1) (by omega), hbytes]
    rfl
  exact exec_knownVector_pair (r := rangeExplicit 1 6) rfl (by simp [rangeExplicit, hlen]) hvector

/-- Settles O32: the range of CRC16.P LEN is that of CRC16.R 0, LEN, so both are one checksum. -/
theorem crcPrefixRule : Obligations.CrcPrefixRule := by
  have hinside : ∀ {s : State} {len : Nat}, len ≤ s.ilen → (rangePrefix len).start + (rangePrefix len).len ≤ s.ilen :=
    fun h => by simpa [rangePrefix] using h
  refine ⟨fun start len => decode_checksumWord (form := 0b001#3) rfl, fun s len h => exec_checksummed rfl (hinside h),
    fun s len => rfl, fun s len hout => exec_outside (r := rangePrefix len) rfl (by simpa [rangePrefix] using hout),
    fun s => exec_empty_pair rfl (Nat.zero_le _), fun s => rfl, fun s hlen hbytes => ?_⟩
  have hvector : s.ibuf.bytes 0 6 = knownVector := by
    rw [Memory.bytes_slice s.ibuf (start := 0) (n := 8) (k := 0) (by omega), hbytes]
    rfl
  exact exec_knownVector_pair rfl (hinside (by omega)) hvector

/-- Settles O33: the range of CRC16.F is the whole buffer, which lies inside it in every state. -/
theorem crcFullRule : Obligations.CrcFullRule := by
  have hinside : ∀ s : State, (rangeFull s).start + (rangeFull s).len ≤ s.ilen := fun s => by simp [rangeFull]
  refine ⟨fun start len => decode_checksumWord (form := 0b010#3) rfl, fun s => exec_checksummed rfl (hinside s),
    fun s => rfl, fun s hempty => ?_, fun s hlen hbytes => ?_, crcOf_take_knownVector⟩
  · exact exec_empty_pair (start := 0) (by rw [range?, rangeFull, hempty, rangeExplicit]) (Nat.zero_le _)
  · exact exec_knownVector_pair rfl (hinside s) (by rw [rangeFull, hlen, hbytes, knownVector])

end Sys2Proof.Machine

namespace Sys2Proof.Machine

/-! ### R181 and R184: InvalidArgument -/

/-- CMD[2] of a REORDER's word tells its group size (R89). -/
theorem groupSize_of_word {i : Instr} {c : Convention} (hc : i.convention? = some c) :
    (if (encode i).word.getLsbD 2 then 8 else 4) = groupSize c := by
  cases i <;> cases hc <;> rfl

/-- The two cases of R181 are the failures of the length test. -/
theorem not_admitted_iff (size : Nat) (s : State) : ¬ Admitted size s ↔ s.ilen = 0 ∨ s.ilen % size ≠ 0 := by
  rw [not_and_or, not_not]

/-- A checksum command that completes does so with STAT = 0 (R182). -/
theorem exec_checksum_stat {i : Instr} {s t : State} (hn : i.convention? = none) (h : exec i s = .next t) :
    t.stat = 0#1 := by
  obtain ⟨_, hc, _⟩ | ⟨_, hc, _⟩ | ⟨_, _, _, _, rfl⟩ := exec_next_cases h
  · simp [hn] at hc
  · simp [hn] at hc
  · rfl

/-- A command that completes with STAT = 1 is a REORDER that met a bad length. -/
theorem rejected_of_stat_one {i : Instr} {s t : State} (h : exec i s = .next t) (hstat : t.stat = 1#1) :
    ∃ c, i.convention? = some c ∧ ¬ Admitted (groupSize c) s := by
  obtain ⟨c, hc, hbad, _⟩ | ⟨_, _, _, rfl⟩ | ⟨_, hn, _⟩ := exec_next_cases h
  · exact ⟨c, hc, hbad⟩
  · simp [statOk] at hstat
  · simp [exec_checksum_stat hn h] at hstat

/-- Settles O20: raising InvalidArgument is the update of STAT alone. -/
theorem failedReorderWritesStatOnly : Obligations.FailedReorderWritesStatOnly :=
  fun _ _ _ hc hbad => exec_rejected hc hbad

/-- Settles O19: a bad length is rejected with STAT = 1, and of the three completions of a command (`exec_next_cases`) that is
the only one with STAT = 1. -/
theorem invalidArgumentRaisedExactly : Obligations.InvalidArgumentRaisedExactly := by
  intro i s
  refine ⟨fun hsome hbad => ?_, fun t h hstat => ?_⟩
  · obtain ⟨c, hc⟩ := Option.isSome_iff_exists.mp hsome
    rw [groupSize_of_word hc, ← not_admitted_iff] at hbad
    exact ⟨_, exec_rejected hc hbad, rfl⟩
  · obtain ⟨c, hc, hbad⟩ := rejected_of_stat_one h hstat
    rw [groupSize_of_word hc, ← not_admitted_iff]
    exact ⟨Option.isSome_of_eq_some hc, hbad⟩

/-! ### R182 and R188: the contract decides between completion and refusal -/

/-- A REORDER has no contract on its length: a bad one is an error it reports (R181). -/
theorem inContract_of_reorder {i : Instr} {c : Convention} (hc : i.convention? = some c) (n : Nat) :
    i.inContract n = true := by
  cases i <;> cases hc <;> rfl

/-- A command within its contract completes. -/
theorem exec_completes {i : Instr} {s : State} (h : i.inContract s.ilen = true) : ∃ t, exec i s = .next t := by
  obtain ⟨c, hc, _⟩ | ⟨r, _, hr, _⟩ := exec_cases i s
  · by_cases hadm : Admitted (groupSize c) s
    · exact ⟨_, exec_admitted hc hadm⟩
    · exact ⟨_, exec_rejected hc hadm⟩
  · exact ⟨_, exec_inside hr ((inContract_iff hr).mp h)⟩

/-- A command is refused exactly where it is outside its contract (R188 (b)). -/
theorem exec_refused_iff (i : Instr) (s : State) : (∃ why, exec i s = .refused why) ↔ ¬ i.inContract s.ilen = true := by
  refine ⟨fun ⟨why, hwhy⟩ hin => ?_, fun hout => ?_⟩
  · obtain ⟨t, ht⟩ := exec_completes hin
    simp [ht] at hwhy
  · obtain ⟨c, hc, _⟩ | ⟨r, _, hr, _⟩ := exec_cases i s
    · exact absurd (inContract_of_reorder hc s.ilen) hout
    · rw [inContract_iff hr, Nat.not_le] at hout
      exact ⟨_, exec_outside hr hout⟩

/-- Settles O35: within its contract the command completes, and a checksum command that completes leaves STAT = 0. -/
theorem checksumNeverRaises : Obligations.ChecksumNeverRaises := by
  intro i s hn
  refine ⟨fun hin => ?_, fun t h => exec_checksum_stat hn h⟩
  obtain ⟨t, ht⟩ := exec_completes hin
  exact ⟨t, ht, exec_checksum_stat hn ht⟩

/-! ### R84 and R85: the rows of the opcode map that a request can meet -/

/-- A word below 0x8 is CMD[3] = 0 over a convention's field; of the others three are assigned. -/
theorem word_cases : ∀ w : BitVec 4,
    (w.toNat < 8 ∧ w = 0#1 ++ fieldOfConvention (conventionOfField (w.extractLsb' 0 3))) ∨
      w = 1#1 ++ 0b000#3 ∨ w = 1#1 ++ 0b001#3 ∨ w = 1#1 ++ 0b010#3 ∨ 0xB ≤ w.toNat := by
  decide

/-- What a request decodes to, by its word. -/
theorem decode_cases (r : Request) :
    (r.word.toNat < 8 ∧ ∃ c, decode r = .ok (reorderInstr c)) ∨
      (r.word = 0x8#4 ∧ decode r = .ok (.crc16R r.start r.len)) ∨
      (r.word = 0x9#4 ∧ decode r = .ok (.crc16P r.len)) ∨
      (r.word = 0xA#4 ∧ decode r = .ok .crc16F) ∨
      (0xB ≤ r.word.toNat ∧ decode r = .error (.reservedWord r.word)) := by
  obtain ⟨w, start, len⟩ := r
  obtain ⟨hlow, hw⟩ | rfl | rfl | rfl | hres := word_cases w
  · generalize conventionOfField (w.extractLsb' 0 3) = c at hw
    subst hw
    exact .inl ⟨hlow, c, decode_reorderWord c start len⟩
  · exact .inr (.inl ⟨rfl, decode_checksumWord rfl⟩)
  · exact .inr (.inr (.inl ⟨rfl, decode_checksumWord rfl⟩))
  · exact .inr (.inr (.inr (.inl ⟨rfl, decode_checksumWord rfl⟩)))
  · exact .inr (.inr (.inr (.inr ⟨hres, decode_reserved hres⟩)))

/-- The step that has a command presented is refused exactly where the command is outside its contract (R188 (b)). -/
theorem step_refused_iff {s : State} {r : Request} {rest : List HostEvent} {i : Instr}
    (hp : s.pending = .command r :: rest) (hd : decode r = .ok i) :
    (∃ why, step s = .refused why) ↔ ¬ i.inContract s.ilen = true := by
  rw [step_command hp, issue_ok hd, exec_refused_iff, State.setPending_ilen]

/-- Settles O44: a reserved word is refused when it is issued; any other word is a command, refused exactly outside its
contract (`step_refused_iff`), which only the words 0x8 and 0x9 have. -/
theorem outOfContractCommandsRefused : Obligations.OutOfContractCommandsRefused := by
  intro s r rest hp
  obtain ⟨hlow, c, hd⟩ | ⟨hw, hd⟩ | ⟨hw, hd⟩ | ⟨hw, hd⟩ | ⟨hres, hd⟩ := decode_cases r
  · have hin := inContract_of_reorder (convention?_reorderInstr c) s.ilen
    have h8 : r.word ≠ 0x8#4 := fun h => by simp [h] at hlow
    have h9 : r.word ≠ 0x9#4 := fun h => by simp [h] at hlow
    have hB : ¬ 0xB ≤ r.word.toNat := by omega
    simp [step_refused_iff hp hd, hin, h8, h9, hB]
  · simp [step_refused_iff hp hd, Instr.inContract, hw]
  · simp [step_refused_iff hp hd, Instr.inContract, hw]
  · simp [step_refused_iff hp hd, Instr.inContract, hw]
  · exact iff_of_true ⟨_, reservedWordsRefused s r rest hp hres⟩ (.inl hres)

end Sys2Proof.Machine

namespace Sys2Proof.Machine

/-! ### R203: what a command answers is decided by the input and the host order -/

/-- Of the state, the gathered rows read IBUF only. -/
theorem gatherRows_congr {s s' : State} (h : s'.ibuf = s.ibuf) (size : Nat) (p : List Nat) (n : Nat) :
    gatherRows s' size p n = gatherRows s size p n := by
  simp only [gatherRows, h]

/-- Two completions of the command `i` answer alike: the same STAT, the same output of a successful REORDER, the same result
bytes of a checksum. -/
def SameAnswer (i : Instr) (v u : State) : Prop :=
  u.stat = v.stat ∧ (i.convention?.isSome = true → u.stat = 0#1 → SameOutput v u) ∧
    (i.convention? = none → SameResultBytes v u)

/-- A command that completes on a state completes, with the same answer, on any other with the same input and host order: the
length test, the gathered rows and the checksum of a range are terms in these alone. -/
theorem exec_sameAnswer {i : Instr} {s t u : State} (hin : SameInput s t) (hle : t.hle = s.hle)
    (h : exec i t = .next u) : ∃ v, exec i s = .next v ∧ SameAnswer i v u := by
  obtain ⟨hilen, hibuf⟩ := hin
  obtain ⟨c, hc, hbad, rfl⟩ | ⟨c, hc, hok, rfl⟩ | ⟨r, hn, hr, hrange, rfl⟩ := exec_next_cases h
  · rw [hilen] at hbad
    exact ⟨_, exec_rejected hc hbad, rfl, by simp [statInvalidArgument], by simp [hc]⟩
  · rw [hilen] at hok
    refine ⟨_, exec_admitted hc hok, rfl, fun _ _ => ⟨hilen, ?_⟩, by simp [hc]⟩
    simp [gatherRows_congr hibuf, hilen, hle]
  · rw [hilen] at hrange
    rw [range?_congr hilen] at hr
    exact ⟨_, exec_inside hr hrange, rfl, by simp [hn], fun _ => by simp [SameResultBytes, hibuf]⟩

/-- Settles O50: the first command, successful or not, keeps the input and the host order (`exec_sameInput`,
`exec_keeps_hle`), and these decide what the second answers. That the first is a REORDER is not used: a checksum keeps them
too. -/
theorem secondCommandSeesOriginalInput : Obligations.SecondCommandSeesOriginalInput := by
  intro i j s t u _ hfirst hsecond
  have hinput := exec_sameInput hfirst
  exact ⟨hinput, exec_sameAnswer hinput (exec_keeps_hle hfirst) hsecond⟩

end Sys2Proof.Machine

namespace Sys2Proof.Machine

/-! ### R80 to R84: a request decodes to a command exactly where it presents that command -/

theorem reorderInstr_of_convention? {i : Instr} {c : Convention} (hc : i.convention? = some c) : i = reorderInstr c := by
  cases i <;> cases hc <;> rfl

@[simp] theorem encode_reorderInstr (c : Convention) : encode (reorderInstr c) = formatP c := by
  cases c <;> rfl

/-- A REORDER takes no operand (R80). -/
@[simp] theorem operandsMatch_reorderInstr (c : Convention) (r : Request) : operandsMatch (reorderInstr c) r := by
  cases c <;> trivial

/-- What a command is encoded to presents its operands. -/
theorem operandsMatch_encode (i : Instr) : operandsMatch i (encode i) := by
  cases i <;> simp [operandsMatch, encode, formatC]

/-- A request with a command's word and the operands it takes decodes to that command. -/
theorem decode_of_word {i : Instr} {r : Request} (hword : (encode i).word = r.word) (hop : operandsMatch i r) :
    decode r = .ok i := by
  obtain ⟨w, start, len⟩ := r
  obtain rfl : (encode i).word = w := hword
  cases hc : i.convention? with
  | some c =>
    obtain rfl := reorderInstr_of_convention? hc
    rw [encode_reorderInstr]
    exact decode_reorderWord c start len
  | none =>
    cases i <;> cases hc
    · obtain ⟨rfl, rfl⟩ := hop
      exact decode_checksumWord rfl
    · obtain rfl := hop
      exact decode_checksumWord rfl
    · exact decode_checksumWord rfl

/-- A request that decodes to a command has its word and the operands it takes. -/
theorem word_of_decode {i : Instr} {r : Request} (h : decode r = .ok i) :
    (encode i).word = r.word ∧ operandsMatch i r := by
  obtain ⟨w, start, len⟩ := r
  obtain ⟨-, hw⟩ | rfl | rfl | rfl | hres := word_cases w
  · generalize conventionOfField (w.extractLsb' 0 3) = c at hw
    subst hw
    cases (decode_reorderWord c start len).symm.trans h
    simp [formatP]
  · cases (decode_checksumWord (form := 0b000#3) rfl).symm.trans h
    exact ⟨rfl, rfl, rfl⟩
  · cases (decode_checksumWord (form := 0b001#3) rfl).symm.trans h
    exact ⟨rfl, rfl⟩
  · cases (decode_checksumWord (form := 0b010#3) rfl).symm.trans h
    exact ⟨rfl, trivial⟩
  · cases (decode_reserved (r := ⟨w, start, len⟩) hres).symm.trans h

/-- Decoding gives back the command that was encoded. -/
theorem decode_encode (i : Instr) : decode (encode i) = .ok i := decode_of_word rfl (operandsMatch_encode i)

/-- Settles O2: the row of the opcode map that a request's word meets (`word_cases`) decides the command, and with it the
operands that are read. -/
theorem decodeAndEncodeAgree : Obligations.DecodeAndEncodeAgree :=
  ⟨decode_encode, fun _ _ => ⟨word_of_decode, fun ⟨hword, hop⟩ => decode_of_word hword hop⟩⟩

/-- Settles O3: CONV[2] is 0 for the four conventions of the 4-byte family and 1 for the four of the 8-byte family. -/
theorem groupSizeFromConventionBit : Obligations.GroupSizeFromConventionBit := by
  intro c
  cases c <;> rfl

/-! ### R88: the assembler -/

/-- Settles O42: CRC16.T START is CRC16.R over the bytes from START to the end, a range inside the buffer. -/
theorem tailPseudoInstruction : Obligations.TailPseudoInstruction := by
  refine fun s start => ⟨fun hin => ?_, fun hout => by simp [assembleTail, hout]⟩
  have hrange : (rangeExplicit start (s.ilen - start)).start + (rangeExplicit start (s.ilen - start)).len ≤ s.ilen := by
    simp only [rangeExplicit]
    omega
  obtain ⟨t, ht, hsum⟩ := exec_checksummed (i := .crc16R start (s.ilen - start)) rfl hrange
  exact ⟨_, t, by simp [assembleTail, hin], ht, hsum⟩

/-- A program that assembles does so line by line. -/
theorem assemble_cons {ilen : Nat} {line : AsmLine} {rest : List AsmLine} {events : List HostEvent}
    (h : assemble ilen (line :: rest) = some events) :
    ∃ e es, assembleLine ilen line = some e ∧ assemble (lengthAfter ilen line) rest = some es ∧ events = e :: es := by
  rw [assemble] at h
  split at h
  · rename_i e es he hes
    cases h
    exact ⟨e, es, he, hes, rfl⟩
  · cases h

/-- Settles O43, by induction on the lines: the event of a command line is the command's encoding, which decodes back to it. -/
theorem assembledProgramKeepsLines : Obligations.AssembledProgramKeepsLines := by
  intro ilen lines
  induction lines generalizing ilen with
  | nil =>
    intro events h
    cases h
    simp
  | cons line rest ih =>
    intro events h
    obtain ⟨e, es, he, hes, rfl⟩ := assemble_cons h
    obtain ⟨hlen, hrest⟩ := ih _ _ hes
    refine ⟨by simp [hlen], fun k hk i hi => ?_⟩
    cases k with
    | zero =>
      obtain rfl : line = .command i := hi
      cases he
      exact ⟨encode i, rfl, decode_encode i⟩
    | succ k => exact hrest k (Nat.lt_of_succ_lt_succ hk) i hi

end Sys2Proof.Machine

namespace Sys2Proof.Machine

/-! ### What a step does with the host's next element -/

/-- A step with an element pending takes it off the host's sequence and acts on it (R60, R207). -/
theorem step_pending {s : State} {e : HostEvent} {rest : List HostEvent} (h : s.pending = e :: rest) :
    step s = act e (s.setPending rest) := by
  simp [step, nextEvent_cons h]

theorem step_idle {s : State} (h : s.pending = []) : step s = .next s := by
  simp [step, nextEvent_nil h, idle]

/-- A LOAD within MAXLEN completes. -/
theorem execLoad_within {s : State} {bytes : List Byte} (h : withinMaxLen s.maxLen bytes.length = true) :
    execLoad bytes s = .next (s.setInput bytes) := by
  simp [execLoad, h]

/-- Settles O5: the pending request is issued, and it decodes to the command. -/
theorem stepRunsPresentedCommand : Obligations.StepRunsPresentedCommand := by
  intro s r rest i hp hd
  rw [step_command hp, issue_ok hd, State.setPending]

/-- Settles O6. -/
theorem idleStepChangesNothing : Obligations.IdleStepChangesNothing := fun _ h => step_idle h

/-- Settles O8: the buffer is the one that holds the bytes, and beyond them lists nothing. -/
theorem loadReplacesInputOnly : Obligations.LoadReplacesInputOnly := by
  intro s bytes rest hp hwithin
  refine ⟨(s.setPending rest).setInput bytes, ?_, rfl, fun k hk => ?_, fun k hk => ?_, ⟨rfl, rfl⟩, ⟨rfl, rfl⟩,
    ⟨rfl, rfl, rfl⟩, rfl, rfl, rfl, rfl⟩
  · rw [step_pending hp]
    exact execLoad_within hwithin
  · simp [Memory.read_ofBytes, hk]
  · exact Memory.read_of_below (Memory.below_ofBytes bytes) hk

/-- Settles O9: what the step keeps of OBUF is its bytes below OLEN. -/
theorem readObservesResults : Obligations.ReadObservesResults := by
  intro s rest hp
  refine ⟨_, observe (s.setPending rest), step_pending hp, rfl, ?_, fun k hk => ?_, rfl, rfl, rfl, rfl⟩
  · simp [observe, Memory.bytes]
  · simp [observe, Memory.bytes]

/-- Settles O10: the length test of LOAD fails. -/
theorem loadBeyondMaxLenRefused : Obligations.LoadBeyondMaxLenRefused := by
  intro s bytes rest m hp hmax hlong
  have htest : withinMaxLen s.maxLen bytes.length = false := by simpa [withinMaxLen, hmax] using hlong
  simp [step_pending hp, act, execLoad, htest]

/-- Settles O52: the reset event acts as R200 says, and leaves what the host still has to do and has read. -/
theorem resetEventRestoresResetValues : Obligations.ResetEventRestoresResetValues := by
  intro s rest hp
  exact ⟨_, step_pending hp, ⟨rfl, rfl⟩, rfl, rfl, rfl, rfl, rfl, rfl, rfl⟩

/-! ### R22, R23, R51: the buffers stay canonical, below their lengths and within MAXLEN -/

/-- The empty buffer is within every MAXLEN. -/
theorem withinMaxLen_zero (maxLen : Option Nat) : withinMaxLen maxLen 0 = true := by
  cases maxLen <;> simp [withinMaxLen]

/-- A reset leaves both buffers empty. -/
theorem State.afterReset_inv (hostLE : Bool) (maxLen : Option Nat) (n : Nat) : (State.afterReset hostLE maxLen n).Inv :=
  ⟨rfl, rfl, rfl, rfl, withinMaxLen_zero maxLen, withinMaxLen_zero maxLen⟩

/-- A LOAD within MAXLEN keeps the invariant. -/
theorem State.setInput_inv {s : State} {bytes : List Byte} (h : s.Inv)
    (hwithin : withinMaxLen s.maxLen bytes.length = true) : (s.setInput bytes).Inv := by
  obtain ⟨-, -, howf, hobelow, -, homax⟩ := h
  exact ⟨Memory.wf_ofBytes bytes, Memory.below_ofBytes bytes, howf, hobelow, hwithin, homax⟩

/-- A command writes OBUF only with gathered rows, which are canonical and fill exactly the whole groups of the input, and
OLEN only with ILEN. -/
theorem exec_inv {i : Instr} {s t : State} (h : s.Inv) (hexec : exec i s = .next t) : t.Inv := by
  obtain ⟨_, _, _, rfl⟩ | ⟨c, _, _, rfl⟩ | ⟨_, _, _, _, rfl⟩ := exec_next_cases hexec
  · exact h
  · obtain ⟨hiwf, hibelow, -, -, himax, -⟩ := h
    exact ⟨hiwf, hibelow, gatherRows_wf _ _ _ _, gatherRows_below _ _ _ _ _ (Nat.div_mul_le_self _ _), himax, himax⟩
  · exact h

/-- Settles O54. -/
theorem invariantHoldsAtReset : Obligations.InvariantHoldsAtReset := State.afterReset_inv _ _ _

/-- Settles O55, over the shapes a step can have (`step_next_cases`): what is taken off the host's sequence and what a READ
keeps are not the invariant's, a LOAD and a command keep it, and a reset establishes it. -/
theorem invariantKeptByStep : Obligations.InvariantKeptByStep := by
  intro s t hinv hstep
  obtain ⟨_, rfl⟩ | ⟨bytes, rest, _, hwithin, rfl⟩ | ⟨rest, _, rfl⟩ | ⟨r, i, rest, _, _, hexec⟩ | ⟨rest, _, hreset⟩ :=
    step_next_cases hstep
  · exact hinv
  · exact State.setInput_inv (s := s.setPending rest) hinv hwithin
  · exact hinv
  · exact exec_inv (s := s.setPending rest) hinv hexec
  · cases hreset
    exact State.afterReset_inv s.hle s.maxLen s.resets

/-! ### Runs -/

/-- A run of `n + 1` steps is a step and a run of `n`. -/
theorem run_succ_next {M : Host.Core} {n : Nat} {s t : M.State} (h : M.run (n + 1) s = .next t) :
    ∃ u, M.step s = .next u ∧ M.run n u = .next t := by
  rw [Host.Core.run] at h
  split at h
  · rename_i u hu
    exact ⟨u, hu, h⟩
  · cases h
  · cases h

/-- No command takes anything off the host's sequence. -/
theorem exec_keeps_pending {i : Instr} {s t : State} (h : exec i s = .next t) : t.pending = s.pending := by
  obtain ⟨_, _, _, rfl⟩ | ⟨_, _, _, rfl⟩ | ⟨_, _, _, _, rfl⟩ := exec_next_cases h <;> rfl

/-- A step consumes the first element of the host's sequence, if there is one. -/
theorem step_consumes_head {s t : State} (h : step s = .next t) : t.pending = s.pending.tail := by
  obtain ⟨hp, rfl⟩ | ⟨_, _, hp, _, rfl⟩ | ⟨_, hp, rfl⟩ | ⟨_, _, _, hp, _, hexec⟩ | ⟨_, hp, hreset⟩ := step_next_cases h
  · simp [hp]
  · simp [hp]
  · simp [hp]
  · simp [hp, exec_keeps_pending hexec]
  · cases hreset
    simp [hp]

/-- No step changes CFG.HLE or MAXLEN: a reset latches the same HOST_LE again (C7). -/
theorem step_sameConfig {s t : State} (h : step s = .next t) : SameConfig s t := by
  obtain ⟨_, rfl⟩ | ⟨_, _, _, _, rfl⟩ | ⟨_, _, rfl⟩ | ⟨_, _, rest, _, _, hexec⟩ | ⟨_, _, hreset⟩ := step_next_cases h
  · exact ⟨rfl, rfl⟩
  · exact ⟨rfl, rfl⟩
  · exact ⟨rfl, rfl⟩
  · exact exec_sameConfig (s := s.setPending rest) hexec
  · cases hreset
    exact ⟨rfl, rfl⟩

/-- Settles O7, by induction on the number of steps. -/
theorem runConsumesSequenceInOrder : Obligations.RunConsumesSequenceInOrder := by
  intro n
  induction n with
  | zero =>
    intro s t h
    cases h
    rfl
  | succ n ih =>
    intro s t h
    obtain ⟨u, hstep, hrun⟩ := run_succ_next h
    rw [ih u t hrun, step_consumes_head hstep, List.drop_tail]

/-- Settles O53, by induction on the number of steps. -/
theorem parametersNeverChange : Obligations.ParametersNeverChange := by
  intro n
  induction n with
  | zero =>
    intro s t h
    cases h
    exact ⟨rfl, rfl⟩
  | succ n ih =>
    intro s t h
    obtain ⟨u, hstep, hrun⟩ := run_succ_next h
    obtain ⟨hhle, hmax⟩ := step_sameConfig hstep
    obtain ⟨hhle', hmax'⟩ := ih u t hrun
    exact ⟨hhle'.trans hhle, hmax'.trans hmax⟩

/-! ### R51 and R204: no fault, and completion within the contract -/

/-- A command within its contract completes, and one outside it is refused: neither faults. -/
theorem exec_ne_fault (i : Instr) (s : State) (why : Fault) : exec i s ≠ .fault why := by
  by_cases hin : i.inContract s.ilen = true
  · obtain ⟨t, ht⟩ := exec_completes hin
    simp [ht]
  · obtain ⟨r, hr⟩ := (exec_refused_iff i s).mpr hin
    simp [hr]

/-- A presented request that is no command is refused, and a command does not fault. -/
theorem issue_ne_fault (r : Request) (s : State) (why : Fault) : issue r s ≠ .fault why := by
  cases hd : decode r with
  | ok i =>
    rw [issue_ok hd]
    exact exec_ne_fault i s why
  | error e =>
    obtain ⟨w⟩ := e
    simp [issue_error hd]

theorem act_ne_fault (e : HostEvent) (s : State) (why : Fault) : act e s ≠ .fault why := by
  cases e with
  | load bytes =>
    simp only [act, execLoad]
    split <;> simp
  | read => simp [act, execRead]
  | command r => exact issue_ne_fault r s why
  | reset => simp [act, execReset]

/-- Settles O46: the range test of a checksum and the whole groups of a REORDER keep every read of a command inside IBUF,
and the host's actions read nothing of it. -/
theorem noStepFaults : Obligations.NoStepFaults := by
  intro s why
  cases hp : s.pending with
  | nil => simp [step_idle hp]
  | cons e rest =>
    rw [step_pending hp]
    exact act_ne_fault e _ why

/-- Settles O45. -/
theorem inContractCommandsComplete : Obligations.InContractCommandsComplete := fun _ _ h => exec_completes h

end Sys2Proof.Machine

namespace Sys2Proof.Machine

/-! ### R122 and R123: the 8-byte family's rules on the readings D20 and D21 -/

/-- Settles O16: the row of GHEFCDAB, the full reversal on a little-endian host and the list of D20 on a big-endian one. -/
theorem reorderGhefcdabRule : Obligations.ReorderGhefcdabRule := reorderInstr_rule .ghefcdab

/-- Settles O17: the row of BADCFEHG, the full reversal on a little-endian host and the list of D21 on a big-endian one. -/
theorem reorderBadcfehgRule : Obligations.ReorderBadcfehgRule := reorderInstr_rule .badcfehg

/-! ### R106 and R126: an output group against the input group at its index -/

/-- The bytes of a row of positions, position by position from its base. -/
theorem Memory.bytes_eq_map_range (m : Memory) (base n : Nat) :
    m.bytes base n = (List.range n).map fun j => m.read (base + j) := by
  simp [Memory.bytes, List.range'_eq_map_range]

@[simp] theorem perm_length (c : Convention) (hle : Bool) : (perm c hle).length = groupSize c := by
  cases c <;> cases hle <;> rfl

/-- Every list of the permutation table names each position of the group once (R90). -/
theorem perm_perm_range (c : Convention) (hle : Bool) : (perm c hle).Perm (List.range (groupSize c)) := by
  cases c <;> cases hle <;> decide

/-- An output group is the input group read in the order of `p`. -/
theorem Reordered.bytes_group {size : Nat} {p : List Nat} {s t : State} (h : Reordered size p s t)
    (hlen : p.length = size) {g : Nat} (hg : g < s.ilen / size) :
    t.obuf.bytes (g * size) size = p.map fun j => s.ibuf.read (g * size + j) := by
  obtain ⟨-, -, hread, -⟩ := h
  refine List.ext_getElem (by simp [Memory.bytes, hlen]) fun i _ hi => ?_
  have hi : i < p.length := by simpa using hi
  simp [Memory.bytes, hread g i hg (hlen ▸ hi), hi]

/-- Settles O21: the output group is the input group read in the order of a list that names each position once. -/
theorem outputGroupRearrangesInputGroup : Obligations.OutputGroupRearrangesInputGroup := by
  intro i c s t g hc hexec hstat hg
  have hre := reordered_of_success hc hexec hstat
  refine ⟨hre.1, ?_⟩
  rw [hre.bytes_group (perm_length c s.hle) hg, Memory.bytes_eq_map_range]
  exact (perm_perm_range c s.hle).map _

/-- Two completions of one REORDER on inputs of one length: if the first is a success, so is the second. -/
theorem reordered_of_same_length {i : Instr} {c : Convention} {s s' t t' : State} (hc : i.convention? = some c)
    (hlen : s'.ilen = s.ilen) (h : exec i s = .next t) (h' : exec i s' = .next t') (hstat : t.stat = 0#1) :
    Reordered (groupSize c) (perm c s.hle) s t ∧ Reordered (groupSize c) (perm c s'.hle) s' t' := by
  have hadm : Admitted (groupSize c) s' := by
    rw [Admitted, hlen]
    exact admitted_of_success hc h hstat
  obtain ⟨u, hu, hre'⟩ := exec_reordered hc hadm
  cases hu.symm.trans h'
  exact ⟨reordered_of_success hc h hstat, hre'⟩

/-- Settles O22: both outputs read the group by one list, whose entries are positions of the group. -/
theorem groupsIndependent : Obligations.GroupsIndependent := by
  intro i c s s' t t' g hc hlen hhle h h' hstat hg hagree k hk
  obtain ⟨⟨-, -, hread, -⟩, ⟨-, -, hread', -⟩⟩ := reordered_of_same_length hc hlen h h' hstat
  rw [hread' g k (hlen ▸ hg) hk, hread g k hg hk, hhle]
  exact hagree _ (perm_lt c s.hle k hk)

/-- Settles O23. -/
theorem reorderTwiceRestoresInput : Obligations.ReorderTwiceRestoresInput :=
  fun _ _ _ _ _ hc h hstat hload => exec_twice_restores hc h hstat hload

/-! ### R106 (c) and R126 (c): the two host orders -/

/-- Where the convention is not one of the two that D20 and D21 read, the little-endian list is the big-endian list reversed. -/
theorem perm_host_reversed {c : Convention} (h₁ : c ≠ .ghefcdab) (h₂ : c ≠ .badcfehg) {k : Nat} (hk : k < groupSize c) :
    (perm c true).getD k 0 = (perm c false).getD (groupSize c - 1 - k) 0 := by
  revert k
  cases c
  case ghefcdab => exact absurd rfl h₁
  case badcfehg => exact absurd rfl h₂
  all_goals decide

/-- There the little-endian output group is the big-endian output group of the same input, reversed. -/
theorem output_host_reversed {i : Instr} {c : Convention} {s s' t t' : State} {g k : Nat} (hc : i.convention? = some c)
    (h₁ : c ≠ .ghefcdab) (h₂ : c ≠ .badcfehg) (hle : s.hle = true) (hle' : s'.hle = false) (hin : SameInput s s')
    (h : exec i s = .next t) (h' : exec i s' = .next t') (hstat : t.stat = 0#1) (hg : g < s.ilen / groupSize c)
    (hk : k < groupSize c) :
    t.obuf.read (g * groupSize c + k) = t'.obuf.read (g * groupSize c + (groupSize c - 1 - k)) := by
  obtain ⟨hilen, hibuf⟩ := hin
  obtain ⟨⟨-, -, hread, -⟩, ⟨-, -, hread', -⟩⟩ := reordered_of_same_length hc hilen h h' hstat
  rw [hread g k hg hk, hread' g _ (hilen ▸ hg) (by omega), hle, hle', hibuf, perm_host_reversed h₁ h₂ hk]

/-- Settles O24: none of the conventions with a group of 4 bytes is among the two that D20 and D21 read. -/
theorem hostRelationFourByte : Obligations.HostRelationFourByte := by
  intro i c s s' t t' g k hc hsize hle hle' hin h h' hstat hg hk
  have h₁ : c ≠ .ghefcdab := by rintro rfl; cases hsize
  have h₂ : c ≠ .badcfehg := by rintro rfl; cases hsize
  rw [← hsize] at hg hk
  have hrel := output_host_reversed hc h₁ h₂ hle hle' hin h h' hstat hg hk
  rwa [hsize] at hrel

/-- A state with eight bytes that differ from each other loaded, on a platform of the given byte order. -/
def distinctGroup (hle : Bool) : State :=
  (State.afterReset hle none 0).setInput [0xA0#8, 0xA1#8, 0xA2#8, 0xA3#8, 0xA4#8, 0xA5#8, 0xA6#8, 0xA7#8]

/-- For the conventions that D20 and D21 read, eight different bytes break the host relation at position 0. -/
theorem host_relation_broken {i : Instr} {c : Convention} (hc : i.convention? = some c)
    (h : c = .ghefcdab ∨ c = .badcfehg) :
    ∃ t t', exec i (distinctGroup true) = .next t ∧ exec i (distinctGroup false) = .next t' ∧ t.stat = 0#1 ∧
      t.obuf.read 0 ≠ t'.obuf.read 7 := by
  have hadm : ∀ hle, Admitted (groupSize c) (distinctGroup hle) := by
    rcases h with rfl | rfl <;> decide
  have hsize : groupSize c = 8 := by rcases h with rfl | rfl <;> rfl
  obtain ⟨t, ht, -, hstat, hread, -⟩ := exec_reordered hc (hadm true)
  obtain ⟨t', ht', -, -, hread', -⟩ := exec_reordered hc (hadm false)
  refine ⟨t, t', ht, ht', hstat, ?_⟩
  have h₀ := hread 0 0
  have h₇ := hread' 0 7
  simp only [hsize, Nat.zero_mul, Nat.zero_add] at h₀ h₇
  rw [h₀ (by decide) (by decide), h₇ (by decide) (by decide)]
  rcases h with rfl | rfl <;> decide

/-- Settles O25: the relation is that of `output_host_reversed`, and `distinctGroup` breaks it for the other two. -/
theorem hostRelationEightByte : Obligations.HostRelationEightByte := by
  refine ⟨fun i c s s' t t' g k hc hfam hle hle' hin h h' hstat hg hk => ?_, fun i c hc hfam => ?_⟩
  · have hsize : groupSize c = 8 := by rcases hfam with rfl | rfl <;> rfl
    have h₁ : c ≠ .ghefcdab := by rcases hfam with rfl | rfl <;> decide
    have h₂ : c ≠ .badcfehg := by rcases hfam with rfl | rfl <;> decide
    rw [← hsize] at hg hk
    have hrel := output_host_reversed hc h₁ h₂ hle hle' hin h h' hstat hg hk
    rwa [hsize] at hrel
  · obtain ⟨t, t', ht, ht', hstat, hne⟩ := host_relation_broken hc hfam
    exact ⟨distinctGroup true, distinctGroup false, t, t', 0, rfl, rfl, ⟨rfl, rfl⟩, ht, ht', hstat, by omega, hne⟩

/-! ### R126 (d): the 8-byte commands compared -/

/-- Of its convention a REORDER reads the group size and the list for the latched host order only. -/
theorem reorder_congr {c c' : Convention} {s : State} (hsize : groupSize c = groupSize c')
    (hperm : perm c s.hle = perm c' s.hle) : reorder c s = reorder c' s := by
  simp only [reorder, hsize, hperm]

/-- A REORDER of a buffer that is exactly one group delivers that group's bytes in the order of its list. -/
theorem exec_single_group {i : Instr} {c : Convention} {s : State} {m : List Byte} (hc : i.convention? = some c)
    (hlen : s.ilen = groupSize c) (hm : s.ibuf.bytes 0 (groupSize c) = m) :
    ∃ t, exec i s = .next t ∧ t.obuf.bytes 0 (groupSize c) = (perm c s.hle).map fun j => m.getD j 0#8 := by
  have hpos := groupSize_pos c
  have hadm : Admitted (groupSize c) s := by
    rw [Admitted, hlen]
    exact ⟨by omega, Nat.mod_self _⟩
  obtain ⟨t, ht, hre⟩ := exec_reordered hc hadm
  have hgroup := hre.bytes_group (perm_length c s.hle) (g := 0) (by rw [hlen, Nat.div_self hpos]; omega)
  refine ⟨t, ht, ?_⟩
  rw [Nat.zero_mul] at hgroup
  rw [hgroup]
  refine List.map_congr_left fun j hj => ?_
  have hj : j < groupSize c := List.mem_range.mp ((perm_perm_range c s.hle).mem_iff.mp hj)
  simp [← hm, Memory.bytes, hj]

/-- Settles O26: on a little-endian host the three commands share one list, and on a big-endian host the four lists differ. -/
theorem eightByteCommandsCompared : Obligations.EightByteCommandsCompared := by
  refine ⟨fun s hle => ⟨reorder_congr rfl (by rw [hle]; rfl), reorder_congr rfl (by rw [hle]; rfl)⟩,
    fun s hle hlen hbytes => ?_⟩
  obtain ⟨t₁, ht₁, hout₁⟩ := exec_single_group (i := .reorderAbcdefgh) rfl hlen hbytes
  obtain ⟨t₂, ht₂, hout₂⟩ := exec_single_group (i := .reorderGhefcdab) rfl hlen hbytes
  obtain ⟨t₃, ht₃, hout₃⟩ := exec_single_group (i := .reorderBadcfehg) rfl hlen hbytes
  obtain ⟨t₄, ht₄, hout₄⟩ := exec_single_group (i := .reorderHgfedcba) rfl hlen hbytes
  rw [hle] at hout₁ hout₂ hout₃ hout₄
  exact ⟨t₁, t₂, t₃, t₄, ht₁, ht₂, ht₃, ht₄, hout₁, hout₂, hout₃, hout₄⟩

/-! ### R166: what a consumer reads -/

/-- The value table lists the gathered positions as the platform weighs them: a little-endian host takes the last byte of the
output group as the most significant. -/
theorem significance_eq (c : Convention) (hle : Bool) :
    significance c hle = if hle then (perm c hle).reverse else perm c hle := by
  cases c <;> cases hle <;> rfl

/-- A native read weighs a gathered group by the list, reversed on a little-endian host. -/
theorem nativeRead_map (hle : Bool) (p : List Nat) (f : Nat → Byte) :
    nativeRead hle (p.map f) = bigValue ((if hle then p.reverse else p).map f) := by
  cases hle <;> simp [nativeRead]

/-- Settles O27: the output group is the input group in the order of the permutation, and the table is that order by
significance. -/
theorem consumerValueTable : Obligations.ConsumerValueTable := by
  intro i c s t g hc hexec hstat hg
  rw [(reordered_of_success hc hexec hstat).bytes_group (perm_length c s.hle) hg, nativeRead_map, significance_eq]

/-! ### R160: packed registers -/

/-- The packed registers, byte by byte: two positions each, high byte first. -/
theorem pack_getElem? (regs : List Half) (i : Nat) :
    (pack regs)[2 * i]? = regs[i]?.map highByte ∧ (pack regs)[2 * i + 1]? = regs[i]?.map lowByte := by
  induction regs generalizing i with
  | nil => simp [pack]
  | cons r rs ih =>
    have hpack : pack (r :: rs) = highByte r :: lowByte r :: pack rs := rfl
    cases i with
    | zero => simp [hpack]
    | succ i => simpa [hpack, Nat.mul_add] using ih i

theorem pack_length (regs : List Half) : (pack regs).length = 2 * regs.length := by
  simp [pack, Nat.mul_comm]

/-- Settles O28: the loaded buffer reads back the packed bytes. -/
theorem packedRegistersInInput : Obligations.PackedRegistersInInput := by
  intro s regs hwithin
  refine ⟨_, execLoad_within (by rwa [pack_length]), pack_length regs, fun i hi => ?_⟩
  obtain ⟨hhigh, hlow⟩ := pack_getElem? regs i
  simp [Memory.read_ofBytes, List.getD, hhigh, hlow, hi, highByte, lowByte]

end Sys2Proof.Machine

namespace Sys2Proof.Machine

/-! ### R141: the bit step, bit by bit -/

/-- A result bit is the next higher bit, inverted where POLY has a 1 and the low bit was 1. -/
theorem bitStep_getLsbD (a : Half) (k : Nat) :
    (bitStep a).getLsbD k = (a.getLsbD (k + 1) ^^ (a.getLsbD 0 && crcPoly.getLsbD k)) := by
  cases h : a.getLsbD 0
  · simp only [bitStep, h, Bool.false_eq_true, if_false, BitVec.getLsbD_ushiftRight, Nat.add_comm 1 k, Bool.false_and,
      Bool.xor_false]
  · simp only [bitStep, h, if_true, BitVec.getLsbD_xor, BitVec.getLsbD_ushiftRight, Nat.add_comm 1 k, Bool.true_and]

/-- POLY is 0 in bits 1 to 12. -/
theorem crcPoly_middle : ∀ k, k ≤ 12 → 1 ≤ k → crcPoly.getLsbD k = false := by
  decide

/-- The highest result bit is the low bit that was tested. -/
theorem bitStep_getLsbD_top (a : Half) : (bitStep a).getLsbD 15 = a.getLsbD 0 := by
  rw [bitStep_getLsbD, show crcPoly.getLsbD 15 = true by decide, BitVec.getLsbD_of_ge a 16 (by omega), Bool.and_true,
    Bool.false_xor]

/-- Settles O29: POLY is 1 in bits 15, 13 and 0 and in no other. -/
theorem bitStepBitByBit : Obligations.BitStepBitByBit := by
  refine fun a => ⟨bitStep_getLsbD_top a, ?_, ?_, fun k h₁ h₁₂ => ?_, ?_⟩
  · rw [bitStep_getLsbD, show crcPoly.getLsbD 14 = false by decide, Bool.and_false, Bool.xor_false]
  · rw [bitStep_getLsbD, show crcPoly.getLsbD 13 = true by decide, Bool.and_true]
  · rw [bitStep_getLsbD, crcPoly_middle k h₁₂ h₁, Bool.and_false, Bool.xor_false]
  · rw [bitStep_getLsbD, show crcPoly.getLsbD 0 = true by decide, Bool.and_true]

/-! ### R141 and R142: the steps are linear -/

theorem bitStep_xor (a b : Half) : bitStep (a ^^^ b) = bitStep a ^^^ bitStep b := by
  refine BitVec.eq_of_getLsbD_eq fun k _ => ?_
  simp only [BitVec.getLsbD_xor, bitStep_getLsbD]
  cases crcPoly.getLsbD k
  · simp
  · simp only [Bool.and_true, Bool.xor_assoc, Bool.xor_left_comm]

theorem bitSteps_xor (n : Nat) (a b : Half) : bitSteps n (a ^^^ b) = bitSteps n a ^^^ bitSteps n b := by
  induction n generalizing a b with
  | zero => rfl
  | succ n ih => rw [bitSteps, bitStep_xor, ih, bitSteps, bitSteps]

@[simp] theorem zext16_xor (b c : Byte) : zext16 (b ^^^ c) = zext16 b ^^^ zext16 c := BitVec.setWidth_xor

theorem byteStep_xor (a a' : Half) (b b' : Byte) : byteStep (a ^^^ a') (b ^^^ b') = byteStep a b ^^^ byteStep a' b' := by
  have hargs : a ^^^ a' ^^^ (zext16 b ^^^ zext16 b') = (a ^^^ zext16 b) ^^^ (a' ^^^ zext16 b') := by ac_rfl
  rw [byteStep, zext16_xor, hargs, bitSteps_xor, byteStep, byteStep]

/-- The accumulator over the exclusive or of two sequences of equal length is that of the accumulators over each. -/
theorem crcFrom_zipWith_xor {x y : List Byte} (hlen : x.length = y.length) (a a' : Half) :
    crcFrom (a ^^^ a') (List.zipWith (· ^^^ ·) x y) = crcFrom a x ^^^ crcFrom a' y := by
  induction x generalizing y a a' with
  | nil =>
    obtain rfl := List.length_eq_zero_iff.mp hlen.symm
    rfl
  | cons b bs ih =>
    cases y with
    | nil => cases hlen
    | cons b' bs' =>
      have hstep := ih (Nat.succ.inj hlen) (byteStep a b) (byteStep a' b')
      rwa [← byteStep_xor] at hstep

theorem zipWith_xor_zeros (x : List Byte) : List.zipWith (· ^^^ ·) x (List.replicate x.length 0#8) = x := by
  induction x with
  | nil => rfl
  | cons b bs ih => simp [List.replicate_succ, ih]

/-- Settles O38: the sequence `x xor y` is `(x xor y) xor 0`, and INIT is INIT xor INIT xor INIT. -/
theorem checksumAffinity : Obligations.ChecksumAffinity := by
  intro x y hlen
  have hxy : (List.zipWith (· ^^^ ·) x y).length = x.length := by simp [hlen]
  have hinit : crcInit = crcInit ^^^ crcInit ^^^ crcInit := by decide
  have hzeros : (List.zipWith (· ^^^ ·) x y).length = (List.replicate x.length 0#8).length := by simp [hlen]
  calc
    crcOf (List.zipWith (· ^^^ ·) x y)
    _ = crcFrom (crcInit ^^^ crcInit ^^^ crcInit)
          (List.zipWith (· ^^^ ·) (List.zipWith (· ^^^ ·) x y) (List.replicate x.length 0#8)) := by
      rw [← hinit, ← hxy, zipWith_xor_zeros, crcOf]
    _ = crcOf x ^^^ crcOf y ^^^ crcOf (List.replicate x.length 0#8) := by
      rw [crcFrom_zipWith_xor hzeros, crcFrom_zipWith_xor hlen, crcOf, crcOf, crcOf]

/-! ### R150: the table form -/

/-- A bit step on an even accumulator is the shift alone. -/
theorem bitStep_zext16_shiftLeft (b : Byte) {n : Nat} (hn : n < 8) :
    bitStep (zext16 b <<< (n + 1)) = zext16 b <<< n := by
  refine BitVec.eq_of_getLsbD_eq fun k hk => ?_
  have hlow : (zext16 b <<< (n + 1)).getLsbD 0 = false := by simp
  rw [bitStep_getLsbD, hlow, Bool.false_and, Bool.xor_false]
  by_cases htop : k = 15
  · have hout : 8 ≤ 15 - n := by omega
    simp [htop, zext16, hout]
  · have hin : k + 1 < 16 := by omega
    simp [zext16, hk, hin]

/-- As many bit steps as the accumulator has low zeros shift them out. -/
theorem bitSteps_zext16_shiftLeft (b : Byte) {n : Nat} (hn : n ≤ 8) : bitSteps n (zext16 b <<< n) = zext16 b := by
  induction n with
  | zero => simp [bitSteps]
  | succ n ih => rw [bitSteps, bitStep_zext16_shiftLeft b hn, ih (by omega)]

theorem zext16_highByte (a : Half) : zext16 (highByte a) = a >>> 8 := by
  refine BitVec.eq_of_getLsbD_eq fun k hk => ?_
  by_cases hlow : k < 8
  · simp [zext16, highByte, hlow, hk]
  · simp [zext16, highByte, hlow, BitVec.getLsbD_of_ge a (8 + k) (by omega)]

/-- A 16-bit value from its two bytes. -/
theorem half_eq_bytes (a : Half) : a = zext16 (highByte a) <<< 8 ^^^ zext16 (lowByte a) := by
  refine BitVec.eq_of_getLsbD_eq fun k hk => ?_
  by_cases hlow : k < 8
  · simp [zext16, highByte, lowByte, hlow, hk]
  · have hsum : 8 + (k - 8) = k := by omega
    have hhigh : k - 8 < 8 := by omega
    simp [zext16, highByte, lowByte, hlow, hk, hsum, hhigh]

/-- Settles O39: the high byte that meets the bit steps is shifted out unchanged (`bitSteps_zext16_shiftLeft`), and by
linearity the low byte passes them alone. -/
theorem byteStepTableForm : Obligations.ByteStepTableForm := by
  intro a b
  let v := a ^^^ zext16 b
  calc
    byteStep a b = bitSteps 8 (zext16 (highByte v) <<< 8 ^^^ zext16 (lowByte v)) := by rw [← half_eq_bytes v, byteStep]
    _ = zext16 (highByte v) ^^^ bitSteps 8 (zext16 (lowByte v)) := by
      rw [bitSteps_xor, bitSteps_zext16_shiftLeft _ (Nat.le_refl 8)]
    _ = (a >>> 8) ^^^ byteStep 0#16 (lowByte v) := by
      rw [highByte_xor_zext16, zext16_highByte, byteStep, BitVec.zero_xor]

/-! ### R149 (b): the residue of a frame -/

/-- The low bit of the accumulator is recovered from bit 15 of the result, and then every other bit. -/
theorem bitStep_injective : Function.Injective bitStep := by
  intro a a' h
  have hlow : a.getLsbD 0 = a'.getLsbD 0 := by rw [← bitStep_getLsbD_top, h, bitStep_getLsbD_top]
  refine BitVec.eq_of_getLsbD_eq fun k _ => ?_
  cases k with
  | zero => exact hlow
  | succ k =>
    have hk : (bitStep a).getLsbD k = (bitStep a').getLsbD k := by rw [h]
    rw [bitStep_getLsbD, bitStep_getLsbD, hlow] at hk
    exact Bool.xor_left_inj.mp hk

theorem bitSteps_injective (n : Nat) : Function.Injective (bitSteps n) := by
  rw [funext (bitSteps_eq_iterate n)]
  exact bitStep_injective.iterate n

/-- A 16-bit value is decided by its two bytes. -/
theorem half_eq_iff {v w : Half} : v = w ↔ lowByte v = lowByte w ∧ highByte v = highByte w := by
  refine ⟨fun h => by simp [h], fun ⟨hlow, hhigh⟩ => ?_⟩
  rw [half_eq_bytes v, half_eq_bytes w, hlow, hhigh]

@[simp] theorem lowByte_zext16 (b : Byte) : lowByte (zext16 b) = b := by
  refine BitVec.eq_of_getLsbD_eq fun k hk => ?_
  have hk16 : k < 16 := by omega
  simp [lowByte, zext16, hk, hk16]

@[simp] theorem highByte_zext16 (b : Byte) : highByte (zext16 b) = 0#8 := by
  refine BitVec.eq_of_getLsbD_eq fun k hk => ?_
  simp [highByte, zext16]

@[simp] theorem lowByte_zext16_shiftLeft (b : Byte) : lowByte (zext16 b <<< 8) = 0#8 := by
  refine BitVec.eq_of_getLsbD_eq fun k hk => ?_
  simp [lowByte, hk]

@[simp] theorem highByte_zext16_shiftLeft (b : Byte) : highByte (zext16 b <<< 8) = b := by
  refine BitVec.eq_of_getLsbD_eq fun k hk => ?_
  have hshift : 8 + k < 16 := by omega
  simp [highByte, zext16, hk, hshift]

/-- A byte step leaves a value below 256 exactly where the byte is the accumulator's low byte, and then leaves its high byte:
eight bit steps reach `zext16 x` from `x` shifted up by eight places alone. -/
theorem byteStep_eq_zext16_iff (a : Half) (b x : Byte) :
    byteStep a b = zext16 x ↔ b = lowByte a ∧ x = highByte a := by
  rw [byteStep, ← bitSteps_zext16_shiftLeft x (Nat.le_refl 8), (bitSteps_injective 8).eq_iff, half_eq_iff,
    lowByte_xor_zext16, highByte_xor_zext16, lowByte_zext16_shiftLeft, highByte_zext16_shiftLeft, BitVec.xor_eq_zero_iff,
    eq_comm, eq_comm (a := highByte a)]

/-- Two more bytes bring the accumulator to zero exactly where they are its low byte and its high byte, in this order. -/
theorem crcFrom_pair_eq_zero_iff (a : Half) (lo hi : Byte) :
    crcFrom a [lo, hi] = 0#16 ↔ lo = lowByte a ∧ hi = highByte a := by
  have hzero : (0#16 : Half) = zext16 0#8 := rfl
  calc
    crcFrom a [lo, hi] = 0#16 ↔ byteStep (byteStep a lo) hi = zext16 0#8 := by rw [hzero]; rfl
    _ ↔ byteStep a lo = zext16 hi := by
      rw [byteStep_eq_zext16_iff, half_eq_iff, lowByte_zext16, highByte_zext16, eq_comm,
        eq_comm (a := highByte (byteStep a lo))]
    _ ↔ lo = lowByte a ∧ hi = highByte a := byteStep_eq_zext16_iff a lo hi

theorem Memory.bytes_add_two (m : Memory) (n : Nat) : m.bytes 0 (n + 2) = m.bytes 0 n ++ [m.read n, m.read (n + 1)] := by
  simp [Memory.bytes_eq_map_range, List.range_succ]

/-- Settles O37: over the whole frame the accumulator is the body's, and then two byte steps with the frame's last bytes. -/
theorem frameVerificationWaysAgree : Obligations.FrameVerificationWaysAgree := by
  intro s n hlen
  have hprefix : (rangePrefix n).start + (rangePrefix n).len ≤ s.ilen := by simp [rangePrefix, hlen]
  have hfull : (rangeFull s).start + (rangeFull s).len ≤ s.ilen := by simp [rangeFull]
  refine ⟨_, _, exec_inside rfl hprefix, exec_inside rfl hfull, ?_⟩
  have hzero : ∀ v : Half, (lowByte v = 0#8 ∧ highByte v = 0#8) ↔ v = 0#16 := fun v => (half_eq_iff (w := 0#16)).symm
  simp only [State.setStat_crcLo, State.setStat_crcHi, State.setChecksum_crcLo, State.setChecksum_crcHi, rangeFull,
    rangePrefix, hlen, hzero]
  rw [Memory.bytes_add_two, crcOf, crcFrom_append, crcFrom_pair_eq_zero_iff, crcOf]

/-! ### Fixed vectors -/

/-- The byte steps from INIT on through the four short sequences. -/
theorem byteStep_shortVectors :
    byteStep 0xFFFF#16 0x01#8 = 0x807E#16 ∧ byteStep 0x807E#16 0x03#8 = 0x2140#16 ∧
    byteStep 0xFFFF#16 0x03#8 = 0x41FF#16 ∧ byteStep 0x41FF#16 0x01#8 = 0x80C0#16 ∧
    byteStep 0xFFFF#16 0x41#8 = 0x707F#16 ∧ byteStep 0x707F#16 0x42#8 = 0xD1B1#16 ∧
    byteStep 0xFFFF#16 0x11#8 = 0x4C7F#16 ∧ byteStep 0x4C7F#16 0x22#8 = 0xF98D#16 ∧
    byteStep 0xF98D#16 0x33#8 = 0x7079#16 ∧ byteStep 0x7079#16 0x44#8 = 0xD1B1#16 := by decide

/-- The byte steps from the known vector's checksum through its two bytes in the wrong order. -/
theorem byteStep_wrongOrder :
    byteStep 0xCDC5#16 0xCD#8 = 0xC6CC#16 ∧ byteStep 0xC6CC#16 0xC5#8 = 0x0606#16 := by decide

theorem crcOf_knownVector_append (m : List Byte) : crcOf (knownVector ++ m) = crcFrom 0xCDC5#16 m := by
  rw [crcOf, crcFrom_append, ← crcOf, crcOf_knownVector]

/-- Settles O41: the short sequences step by step, and the two frames as the known vector and two more bytes, which bring the
accumulator to zero in the right order (`crcFrom_pair_eq_zero_iff`). -/
theorem checksumVectors : Obligations.ChecksumVectors := by
  have hright : crcFrom 0xCDC5#16 [0xC5#8, 0xCD#8] = 0x0000#16 :=
    (crcFrom_pair_eq_zero_iff _ _ _).mpr ⟨by decide, by decide⟩
  have hwrong : crcFrom 0xCDC5#16 [0xCD#8, 0xC5#8] = 0x0606#16 := by
    simp only [crcFrom, List.foldl_cons, List.foldl_nil, byteStep_wrongOrder]
  refine ⟨?_, ?_, ?_, ?_, (crcOf_knownVector_append _).trans hright, (crcOf_knownVector_append _).trans hwrong⟩ <;>
    simp only [crcOf, crcFrom, crcInit, List.foldl_cons, List.foldl_nil, byteStep_shortVectors]

/-! ### R147, R149 (e), R24 and R26: what a checksum command's result depends on -/

/-- The two bytes of a 16-bit value, as numbers. -/
theorem highByte_lowByte_toNat (a : Half) : (highByte a).toNat * 256 + (lowByte a).toNat = a.toNat := by
  have hlt := a.isLt
  simp only [highByte, lowByte, BitVec.extractLsb'_toNat, Nat.shiftRight_eq_div_pow]
  omega

/-- Settles O34: a checksum command that completes writes the pair from the accumulator it leaves. -/
theorem checksumPairFromAccumulator : Obligations.ChecksumPairFromAccumulator := by
  intro i s t hn h
  obtain ⟨_, hc, _⟩ | ⟨_, hc, _⟩ | ⟨_, _, _, _, rfl⟩ := exec_next_cases h
  · simp [hn] at hc
  · simp [hn] at hc
  · exact ⟨rfl, rfl, highByte_lowByte_toNat _⟩

/-- Settles O40: the two ranges hold the same bytes. -/
theorem rangeFormAgreesWithFullForm : Obligations.RangeFormAgreesWithFullForm := by
  intro s s' start n hin hlen hread
  have hfull : (rangeFull s').start + (rangeFull s').len ≤ s'.ilen := by simp [rangeFull]
  have hbytes : s'.ibuf.bytes 0 n = s.ibuf.bytes start n := by
    rw [Memory.bytes_eq_map_range, Memory.bytes_eq_map_range]
    refine List.map_congr_left fun k hk => ?_
    rw [Nat.zero_add, hread k (List.mem_range.mp hk)]
  refine ⟨_, _, exec_inside (r := rangeExplicit start n) rfl hin, exec_inside rfl hfull, ?_⟩
  simp [SameResultBytes, rangeExplicit, rangeFull, hlen, hbytes]

/-- A checksum command reads none of ACC, CRCLO, CRCHI and STAT: it tests its range, and then writes all four. -/
theorem exec_checksum_ignores_result {i : Instr} (hn : i.convention? = none) (s : State) (a : Half) (lo hi : Byte)
    (code : BitVec 1) : exec i { s with acc := a, crcLo := lo, crcHi := hi, stat := code } = exec i s := by
  obtain ⟨c, hc, -⟩ | ⟨r, -, hr, -⟩ := exec_cases i s
  · simp [hn] at hc
  · have hr' := (range?_congr (s := s) (s' := { s with acc := a, crcLo := lo, crcHi := hi, stat := code }) rfl i).trans hr
    by_cases hin : r.start + r.len ≤ s.ilen
    · exact (exec_inside hr' hin).trans (exec_inside hr hin).symm
    · exact (exec_outside hr' (Nat.not_le.mp hin)).trans (exec_outside hr (Nat.not_le.mp hin)).symm

/-- A REORDER reads no STAT: it tests the length of the input, and writes STAT either way. -/
theorem exec_reorder_ignores_stat {i : Instr} {c : Convention} (hc : i.convention? = some c) (s : State)
    (code : BitVec 1) : exec i { s with stat := code } = exec i s := by
  by_cases hadm : Admitted (groupSize c) s
  · exact (exec_admitted hc hadm).trans (exec_admitted hc hadm).symm
  · exact (exec_rejected hc hadm).trans (exec_rejected hc hadm).symm

/-- Settles O36. -/
theorem checksumForgetsPreviousResult : Obligations.ChecksumForgetsPreviousResult :=
  fun _ s a lo hi hn => exec_checksum_ignores_result hn s a lo hi s.stat

/-- Settles O49, for the two kinds of command. -/
theorem statusNotSticky : Obligations.StatusNotSticky := by
  intro i s code
  cases hc : i.convention? with
  | some c => exact exec_reorder_ignores_stat hc s code
  | none => exact exec_checksum_ignores_result hc s s.acc s.crcLo s.crcHi code

end Sys2Proof.Machine
